-- ==== Sys2Proof/Word.lean ====
section
/-! DEFINITION. The word types of CPU1: 8-bit data, 16-bit addresses, 3-bit selectors (spec 00_scope.md R6, R9, R11). -/

namespace Sys2Proof

/-- A register, memory or operand byte: an unsigned integer in 0..255 (R9). -/
abbrev Byte := BitVec 8

/-- An address, and the width of PC and LastPC: an unsigned integer in 0..65535 (R9). -/
abbrev Addr := BitVec 16

/-- A selector: the register number or I/O-line number an encoding carries in three bits (R11). -/
abbrev Sel := BitVec 3

end Sys2Proof
end

