-- ==== Sys2Proof/Config.lean ====
section
/-! DEFINITION. What one CPU1 machine fixes and never changes: the parameters of spec 00_scope.md R7
(`ARCH`, `OpcodeMap`, `CYC`, `UNUSED_LEN`, `UNUSED_CYC`, `CMP_UNEQUAL`, `ADDR_WRAP`) as plain data, the constraints
30_encoding.md R84 puts on an opcode map, and the machine's own parameter values, which the spec leaves open,
as ONE opaque constant constrained by R84 and nothing else (notes/assumptions 1 to 6). -/

namespace Sys2Proof

/-- The two architecture variants (R2). Only the unused slots' lengths and cycles may depend on it (R80). -/
inductive Arch where
  | nmos
  | cmos
deriving DecidableEq, Repr

/-- The operand mode of a descriptor (R71): no operand byte, one immediate byte, or a two-byte address. -/
inductive Mode where
  | imp
  | imm
  | abs
deriving DecidableEq, Repr

/-- What CMP of two unequal registers does to Carry (R138, parameter `CMP_UNEQUAL`). -/
inductive CmpUnequal where
  | clear
  | keep
deriving DecidableEq, Repr

/-- What a fetch or an advance that passes $FFFF does (R104, parameter `ADDR_WRAP`). -/
inductive AddrWrap where
  | fault
  | wrap
deriving DecidableEq, Repr

/-- The instruction a slot of the dispatch table is bound to: the 37 of R81, or the timed no-op of an unused slot. -/
inductive Mnemonic where
  | nop | halt
  | adr | adi | adm | sub | subi | subm
  | andR | ani | orR | ori | xorR | xri
  | inc | dec | shl | shlc | shr | shrc
  | cmp | ex
  | ldi | ldm | sti
  | lbr | lbrc | lbrz | lbrq
  | setq | resetq
  | push | pop | call | ret
  | spsr | cpsr
  | unused
deriving DecidableEq, Repr

/-- What an unused slot costs: its mode gives `UNUSED_LEN`, its cycles are `UNUSED_CYC` (R80). -/
structure UnusedSlot where
  mode   : Mode
  cycles : Nat
deriving DecidableEq, Repr

/-- The opcode bytes a slot's encoding occupies: a family `bbbbb000`–`bbbbb111` named by its bits 7:3
(formats REG and IOQ, R72, R73), or one whole byte (formats DUAL and FIXED, R74, R75). -/
inductive Pattern where
  | family (code : BitVec 5)
  | single (byte : Byte)
deriving DecidableEq, Repr

/-- The byte is one of the pattern's. -/
def Pattern.hits (ob : Byte) : Pattern → Bool
  | .family code => ob.extractLsb' 3 5 == code
  | .single byte => ob == byte

/-- No byte belongs to both patterns (R84 (c)). -/
def Pattern.disjoint : Pattern → Pattern → Bool
  | .family a, .family b => a != b
  | .family a, .single b => b.extractLsb' 3 5 != a
  | .single a, .family b => a.extractLsb' 3 5 != b
  | .single a, .single b => a != b

/-- The opcode bytes the source does not give (R84): a family code for each of the 16 REG and IOQ instructions of (a),
so that `OPC_<MN>` is `code ++ 0#3`, and one byte for each of the 12 DUAL and FIXED instructions of (b). -/
structure OpcodeMap where
  adi    : BitVec 5
  adm    : BitVec 5
  subi   : BitVec 5
  subm   : BitVec 5
  ani    : BitVec 5
  ori    : BitVec 5
  xri    : BitVec 5
  inc    : BitVec 5
  dec    : BitVec 5
  shl    : BitVec 5
  shlc   : BitVec 5
  shr    : BitVec 5
  shrc   : BitVec 5
  ldm    : BitVec 5
  resetq : BitVec 5
  lbrq   : BitVec 5
  sub    : Byte
  andR   : Byte
  orR    : Byte
  xorR   : Byte
  cmp    : Byte
  ex     : Byte
  lbrc   : Byte
  lbrz   : Byte
  call   : Byte
  ret    : Byte
  spsr   : Byte
  cpsr   : Byte
deriving DecidableEq, Repr

/-- The bytes an opcode map assigns, in the order of R84 (a), (b). -/
def OpcodeMap.patterns (m : OpcodeMap) : List Pattern :=
  [.family m.adi, .family m.adm, .family m.subi, .family m.subm, .family m.ani, .family m.ori, .family m.xri,
   .family m.inc, .family m.dec, .family m.shl, .family m.shlc, .family m.shr, .family m.shrc, .family m.ldm,
   .family m.resetq, .family m.lbrq] ++
  [.single m.sub, .single m.andR, .single m.orR, .single m.xorR, .single m.cmp, .single m.ex, .single m.lbrc,
   .single m.lbrz, .single m.call, .single m.ret, .single m.spsr, .single m.cpsr]

/-- The bytes R84 (c) keeps from an opcode map: $00, $01, $06, $07, $18, $1C–$1E, $38–$4F, $80, $E0–$EF. -/
def givenPatterns : List Pattern :=
  [.single 0x00#8, .single 0x01#8, .single 0x18#8, .single 0x80#8, .family 0b00111#5, .family 0b01000#5,
   .family 0b01001#5, .family 0b11100#5, .family 0b11101#5] ++
  [.single 0x06#8, .single 0x07#8, .single 0x1C#8, .single 0x1D#8, .single 0x1E#8]

/-- An opcode map R84 admits: (a) and (b) hold by the fields' types, and (c) all assigned bytes are distinct from each
other and from the bytes of R79. (d) and (e) follow. -/
def OpcodeMap.admitted (m : OpcodeMap) : Bool :=
  decide ((givenPatterns ++ m.patterns).Pairwise fun p q => p.disjoint q = true)

/-- One machine's parameters (R7). `none` is a parameter the configuration does not fix (R85, R102). -/
structure Config where
  arch        : Arch
  /-- `OpcodeMap` (R84). -/
  opcodeMap   : Option OpcodeMap
  /-- `CYC(b)` for the bytes whose cycle cost R83 does not give. -/
  cyc         : Vector Nat 256
  /-- `UNUSED_LEN(b)`, `UNUSED_CYC(b)` of the NMOS table (R80). -/
  unusedNmos  : Vector (Option UnusedSlot) 256
  /-- The same of the CMOS table. -/
  unusedCmos  : Vector (Option UnusedSlot) 256
  cmpUnequal  : CmpUnequal
  addrWrap    : AddrWrap
deriving DecidableEq, Repr

/-- The unused-slot parameters of the machine's own table: `ARCH` selects it (R2, R36, R80). -/
def Config.unusedTable (c : Config) : Vector (Option UnusedSlot) 256 :=
  match c.arch with
  | .nmos => c.unusedNmos
  | .cmos => c.unusedCmos

/-- `UNUSED_LEN(b)`, `UNUSED_CYC(b)` as configured; `none` where they are not (R80). -/
def Config.unusedAt (c : Config) (ob : Byte) : Option UnusedSlot := c.unusedTable[ob.toFin]

/-- `CYC(b)` as configured (R83). -/
def Config.cycAt (c : Config) (ob : Byte) : Nat := c.cyc[ob.toFin]

/-- The configured opcode map, if there is one, is one R84 admits. -/
def Config.admitted (c : Config) : Bool :=
  match c.opcodeMap with
  | none   => true
  | some m => m.admitted

/-- The configuration fixes every slot, as the hardware's own table does (R78: no slot is empty). -/
def Config.complete (c : Config) : Bool :=
  c.opcodeMap.isSome && c.unusedTable.all Option.isSome

/-- The parameter values a machine may have: a complete configuration whose opcode map R84 admits. -/
abbrev HardwareConfig := { c : Config // c.admitted = true ∧ c.complete = true }

/-- An opcode map, one of the many R84 admits, that shows the constraints can be met. It is no guess at the hardware's
map: it is used only to show that `HardwareConfig` is inhabited, and as sample data in tests. -/
def OpcodeMap.sample : OpcodeMap where
  adi := 0b00001#5
  adm := 0b00010#5
  subi := 0b00100#5
  subm := 0b00101#5
  ani := 0b00110#5
  ori := 0b01010#5
  xri := 0b01011#5
  inc := 0b01100#5
  dec := 0b01101#5
  shl := 0b01110#5
  shlc := 0b01111#5
  shr := 0b10001#5
  shrc := 0b10010#5
  ldm := 0b10011#5
  resetq := 0b10100#5
  lbrq := 0b10101#5
  sub := 0x81#8
  andR := 0x82#8
  orR := 0x83#8
  xorR := 0x84#8
  cmp := 0x85#8
  ex := 0x86#8
  lbrc := 0x19#8
  lbrz := 0x1A#8
  call := 0x02#8
  ret := 0x03#8
  spsr := 0x04#8
  cpsr := 0x05#8

/-- A complete configuration over the sample map: no guess at the hardware's parameters either. -/
def Config.sample : Config where
  arch := .nmos
  opcodeMap := some OpcodeMap.sample
  cyc := Vector.replicate 256 5
  unusedNmos := Vector.replicate 256 (some ⟨.imp, 1⟩)
  unusedCmos := Vector.replicate 256 (some ⟨.imm, 2⟩)
  cmpUnequal := .clear
  addrWrap := .fault

theorem Config.sample_admitted_complete : Config.sample.admitted = true ∧ Config.sample.complete = true := by
  decide +kernel

/-- FREE VALUE. The parameters of the machine at hand, which the spec leaves open (R7, R84; 92_eei_decisions.md D2, D3,
D4, D5, D8, D15). It has no body: nothing can be proved of it but what `HardwareConfig` says, so what is proved of a run
from reset holds for every admitted value of every parameter. The argument only says that such a value exists. -/
opaque Config.ofHardware [Inhabited HardwareConfig] : HardwareConfig

/-- The configuration the machine is built with (R36, R220). -/
def Config.launch : Config :=
  (@Config.ofHardware ⟨⟨Config.sample, Config.sample_admitted_complete⟩⟩).val

theorem Config.launch_admitted : Config.launch.admitted = true :=
  (@Config.ofHardware ⟨⟨Config.sample, Config.sample_admitted_complete⟩⟩).property.1

theorem Config.launch_complete : Config.launch.complete = true :=
  (@Config.ofHardware ⟨⟨Config.sample, Config.sample_admitted_complete⟩⟩).property.2

end Sys2Proof
end

