-- ==== Sys2Proof/Syntax.lean ====
section
/-! DEFINITION. The instructions of CPU1 (spec 30_encoding.md R81 and spec/opcode_table.json): one constructor for each
mnemonic of the table, with the operands R11 names. The table's five `(unused)` rows are one constructor, which covers
every unused slot (R80, R106). -/

namespace Sys2Proof

/-- An instruction with its operands: `x`, `y` the registers of a DUAL operand byte, `r` a register, `q` an I/O line,
`imm` an immediate byte, `addr` an absolute address, `mask` a flag mask, `ob` an unused slot's opcode byte. -/
inductive Instr where
  | nop
  | halt
  | adr (x y : Sel)
  | adi (r : Sel) (imm : Byte)
  | adm (r : Sel) (addr : Addr)
  | sub (x y : Sel)
  | subi (r : Sel) (imm : Byte)
  | subm (r : Sel) (addr : Addr)
  | andR (x y : Sel)
  | ani (r : Sel) (imm : Byte)
  | orR (x y : Sel)
  | ori (r : Sel) (imm : Byte)
  | xorR (x y : Sel)
  | xri (r : Sel) (imm : Byte)
  | inc (r : Sel)
  | dec (r : Sel)
  | shl (r : Sel)
  | shlc (r : Sel)
  | shr (r : Sel)
  | shrc (r : Sel)
  | cmp (x y : Sel)
  | ex (x y : Sel)
  | ldi (r : Sel) (imm : Byte)
  | ldm (r : Sel) (addr : Addr)
  | sti (r : Sel) (addr : Addr)
  | lbr (addr : Addr)
  | lbrc (addr : Addr)
  | lbrz (addr : Addr)
  | lbrq (q : Sel) (addr : Addr)
  | setq (q : Sel)
  | resetq (q : Sel)
  | push (r : Sel)
  | pop (r : Sel)
  | call (addr : Addr)
  | ret
  | spsr (mask : Byte)
  | cpsr (mask : Byte)
  | unused (ob : Byte)
deriving DecidableEq, Repr

/-- The mnemonic of an instruction: the slot its opcode byte is in (R81). -/
def Instr.mnemonic : Instr → Mnemonic
  | .nop => .nop
  | .halt => .halt
  | .adr _ _ => .adr
  | .adi _ _ => .adi
  | .adm _ _ => .adm
  | .sub _ _ => .sub
  | .subi _ _ => .subi
  | .subm _ _ => .subm
  | .andR _ _ => .andR
  | .ani _ _ => .ani
  | .orR _ _ => .orR
  | .ori _ _ => .ori
  | .xorR _ _ => .xorR
  | .xri _ _ => .xri
  | .inc _ => .inc
  | .dec _ => .dec
  | .shl _ => .shl
  | .shlc _ => .shlc
  | .shr _ => .shr
  | .shrc _ => .shrc
  | .cmp _ _ => .cmp
  | .ex _ _ => .ex
  | .ldi _ _ => .ldi
  | .ldm _ _ => .ldm
  | .sti _ _ => .sti
  | .lbr _ => .lbr
  | .lbrc _ => .lbrc
  | .lbrz _ => .lbrz
  | .lbrq _ _ => .lbrq
  | .setq _ => .setq
  | .resetq _ => .resetq
  | .push _ => .push
  | .pop _ => .pop
  | .call _ => .call
  | .ret => .ret
  | .spsr _ => .spsr
  | .cpsr _ => .cpsr
  | .unused _ => .unused

end Sys2Proof
end

