-- ==== Sys2Proof/WellFormed.lean ====
section
/-! DEFINITION. Which instructions a machine of a given configuration has (spec 30_encoding.md R79, R80, R84, R85). Every
operand is of the width its field has, so an instruction can only fail to be one of the machine's: an instruction whose
byte no map assigns, an `unused` byte that is bound to an instruction, or an unused slot whose length and cycles the
configuration does not fix. -/

namespace Sys2Proof

/-- The instructions whose opcode bytes the source gives (R79). -/
def Mnemonic.given : Mnemonic → Bool
  | .nop | .halt | .lbr | .adr | .setq | .push | .pop | .ldi | .sti => true
  | _ => false

/-- The five unused bytes the source gives (R79). -/
def isGivenUnused (ob : Byte) : Bool :=
  [0x06#8, 0x07#8, 0x1C#8, 0x1D#8, 0x1E#8].contains ob

/-- The byte is an unused slot of the configured map: one of the five given, or one that is neither given nor assigned
by the map (R84 (e), R85 (3)). -/
def Config.isUnused (c : Config) (ob : Byte) : Bool :=
  isGivenUnused ob ||
  match c.opcodeMap with
  | none   => false
  | some m => (givenPatterns ++ m.patterns).all fun p => !p.hits ob

/-- The configuration fixes the unused slot's length and cycles (R80). -/
def Config.unusedConfigured (c : Config) (ob : Byte) : Bool :=
  isGivenUnused ob || (c.unusedAt ob).isSome

/-- The instruction is one a machine of configuration `c` decodes. -/
def Instr.wellFormed (c : Config) : Instr → Bool
  | .unused ob => c.isUnused ob && c.unusedConfigured ob
  | i          => i.mnemonic.given || c.opcodeMap.isSome

end Sys2Proof
end

