-- ==== Sys2Proof/Decode.lean ====
section
/-! DEFINITION. The dispatch table, the decoder and the encoder (spec 30_encoding.md R70–R86). Decoding is total on any
bytes and rejects by name; a byte the source gives is decided before the configuration is consulted. -/

namespace Sys2Proof

/-! ## Operand fields (R72–R77) -/

/-- The selector of a REG or IOQ opcode byte: `ob & 0b111` (R72, R73). -/
def selOf (ob : Byte) : Sel := ob.extractLsb' 0 3

/-- `X = (v >> 4) & 0b111` of a DUAL operand byte; bits 7 and 3 are ignored (R74). -/
def dualX (v : Byte) : Sel := v.extractLsb' 4 3

/-- `Y = v & 0b111` of a DUAL operand byte (R74). -/
def dualY (v : Byte) : Sel := v.extractLsb' 0 3

/-- `a ++ b` of two bytes: `a` is the high byte (R9, R55). -/
def wordOf (hi lo : Byte) : Addr := hi ++ lo

/-- The high byte of a 16-bit value, `v[15:8]`. -/
def hiByte (v : Addr) : Byte := v.extractLsb' 8 8

/-- The low byte of a 16-bit value, `v[7:0]`. -/
def loByte (v : Addr) : Byte := v.extractLsb' 0 8

/-- `op[k]`, the k-th operand byte. A handler reads only the operand bytes its descriptor has (R103). -/
def operand (op : List Byte) (k : Nat) : Byte := op.getD k 0

/-- `addr = op[0] ++ op[1]`, high byte first (R77). -/
def absAddr (op : List Byte) : Addr := wordOf (operand op 0) (operand op 1)

/-! ## The opcode bytes (R79, R84, R85) -/

/-- The bytes the source gives and what each is bound to (R79). -/
def givenRows : List (Pattern × Mnemonic) :=
  [(.single 0x00#8, .nop), (.single 0x01#8, .halt), (.single 0x18#8, .lbr), (.single 0x80#8, .adr),
   (.family 0b00111#5, .setq), (.family 0b01000#5, .push), (.family 0b01001#5, .pop), (.family 0b11100#5, .ldi),
   (.family 0b11101#5, .sti)] ++
  [(.single 0x06#8, .unused), (.single 0x07#8, .unused), (.single 0x1C#8, .unused), (.single 0x1D#8, .unused),
   (.single 0x1E#8, .unused)]

/-- What an opcode map binds (R84 (a), (b)). -/
def OpcodeMap.rows (m : OpcodeMap) : List (Pattern × Mnemonic) :=
  [(.family m.adi, .adi), (.family m.adm, .adm), (.family m.subi, .subi), (.family m.subm, .subm),
   (.family m.ani, .ani), (.family m.ori, .ori), (.family m.xri, .xri), (.family m.inc, .inc), (.family m.dec, .dec),
   (.family m.shl, .shl), (.family m.shlc, .shlc), (.family m.shr, .shr), (.family m.shrc, .shrc),
   (.family m.ldm, .ldm), (.family m.resetq, .resetq), (.family m.lbrq, .lbrq)] ++
  [(.single m.sub, .sub), (.single m.andR, .andR), (.single m.orR, .orR), (.single m.xorR, .xorR),
   (.single m.cmp, .cmp), (.single m.ex, .ex), (.single m.lbrc, .lbrc), (.single m.lbrz, .lbrz),
   (.single m.call, .call), (.single m.ret, .ret), (.single m.spsr, .spsr), (.single m.cpsr, .cpsr)]

/-- The binding of the first row whose pattern the byte is in. -/
def findRow (ob : Byte) : List (Pattern × Mnemonic) → Option Mnemonic
  | []             => none
  | (p, m) :: rows => if p.hits ob then some m else findRow ob rows

/-- Why a byte sequence is no instruction of the configured machine. -/
inductive DecodeError where
  /-- The byte's meaning is fixed by neither the source nor the configured map (R85, R102). -/
  | unknownOpcode (ob : Byte)
  /-- An unused slot whose length and cycles are not configured (R80, R102). -/
  | unusedLength (ob : Byte)
  /-- Fewer bytes than the descriptor's length; never met by a fetch, which reads as many as it needs. -/
  | truncated
deriving DecidableEq, Repr

/-- The instruction a byte is bound to, in the order of R85: the given bytes, the map's, else unused; with no map, only
the given bytes have a verdict. -/
def Config.identify (c : Config) (ob : Byte) : Except DecodeError Mnemonic :=
  match findRow ob givenRows with
  | some mn => .ok mn
  | none =>
    match c.opcodeMap with
    | none   => .error (.unknownOpcode ob)
    | some m => .ok ((findRow ob m.rows).getD .unused)

/-! ## Descriptors (R71, R78, R81, R83) -/

/-- The bytes of an encoding: the opcode byte and the mode's operand bytes (R71). -/
def Mode.length : Mode → Nat
  | .imp => 1
  | .imm => 2
  | .abs => 3

/-- The mode column of R81; `imp` for the five given unused slots (R80). -/
def Mnemonic.mode : Mnemonic → Mode
  | .nop | .halt | .inc | .dec | .shl | .shlc | .shr | .shrc | .setq | .resetq | .push | .pop | .ret | .unused => .imp
  | .adr | .adi | .sub | .subi | .andR | .ani | .orR | .ori | .xorR | .xri | .cmp | .ex | .ldi | .spsr | .cpsr => .imm
  | .adm | .subm | .ldm | .sti | .lbr | .lbrc | .lbrz | .lbrq | .call => .abs

/-- The cycle costs the source gives, one for all members of a family (R83). -/
def Mnemonic.givenCycles : Mnemonic → Option Nat
  | .nop | .halt | .setq => some 1
  | .adr                 => some 3
  | .ldi                 => some 2
  | .sti                 => some 4
  | _                    => none

/-- The slot of an unused byte: 1 byte and 1 cycle for the five given ones, else as configured (R80). -/
def Config.unusedSlot (c : Config) (ob : Byte) : Option UnusedSlot :=
  if isGivenUnused ob then some ⟨.imp, 1⟩ else c.unusedAt ob

/-- A descriptor of the dispatch table (R36). `name` also stands for the handler: it selects the meaning. -/
structure Descriptor where
  name   : Mnemonic
  mode   : Mode
  opcode : Byte
  length : Nat
  cycles : Nat
deriving DecidableEq, Repr

/-- The descriptor of a defined byte (R81, R83). -/
def Config.definedDescriptor (c : Config) (mn : Mnemonic) (ob : Byte) : Descriptor where
  name := mn
  mode := mn.mode
  opcode := ob
  length := mn.mode.length
  cycles := mn.givenCycles.getD (c.cycAt ob)

/-- The descriptor of an unused slot (R80). -/
def UnusedSlot.descriptor (u : UnusedSlot) (ob : Byte) : Descriptor where
  name := .unused
  mode := u.mode
  opcode := ob
  length := u.mode.length
  cycles := u.cycles

/-- `Lookup(opcode)`: the descriptor in the byte's slot (R78, R102). -/
def Config.lookup (c : Config) (ob : Byte) : Except DecodeError Descriptor :=
  match c.identify ob with
  | .error e => .error e
  | .ok mn   =>
    if mn = .unused then
      match c.unusedSlot ob with
      | some u => .ok (u.descriptor ob)
      | none   => .error (.unusedLength ob)
    else .ok (c.definedDescriptor mn ob)

/-! ## Decoding (R72–R77, R85) -/

/-- The instruction a slot's handler runs, its operands taken from the opcode byte and the operand bytes (R72–R77). -/
def Mnemonic.instr (mn : Mnemonic) (ob : Byte) (op : List Byte) : Instr :=
  match mn with
  | .nop    => .nop
  | .halt   => .halt
  | .adr    => .adr (dualX (operand op 0)) (dualY (operand op 0))
  | .adi    => .adi (selOf ob) (operand op 0)
  | .adm    => .adm (selOf ob) (absAddr op)
  | .sub    => .sub (dualX (operand op 0)) (dualY (operand op 0))
  | .subi   => .subi (selOf ob) (operand op 0)
  | .subm   => .subm (selOf ob) (absAddr op)
  | .andR   => .andR (dualX (operand op 0)) (dualY (operand op 0))
  | .ani    => .ani (selOf ob) (operand op 0)
  | .orR    => .orR (dualX (operand op 0)) (dualY (operand op 0))
  | .ori    => .ori (selOf ob) (operand op 0)
  | .xorR   => .xorR (dualX (operand op 0)) (dualY (operand op 0))
  | .xri    => .xri (selOf ob) (operand op 0)
  | .inc    => .inc (selOf ob)
  | .dec    => .dec (selOf ob)
  | .shl    => .shl (selOf ob)
  | .shlc   => .shlc (selOf ob)
  | .shr    => .shr (selOf ob)
  | .shrc   => .shrc (selOf ob)
  | .cmp    => .cmp (dualX (operand op 0)) (dualY (operand op 0))
  | .ex     => .ex (dualX (operand op 0)) (dualY (operand op 0))
  | .ldi    => .ldi (selOf ob) (operand op 0)
  | .ldm    => .ldm (selOf ob) (absAddr op)
  | .sti    => .sti (selOf ob) (absAddr op)
  | .lbr    => .lbr (absAddr op)
  | .lbrc   => .lbrc (absAddr op)
  | .lbrz   => .lbrz (absAddr op)
  | .lbrq   => .lbrq (selOf ob) (absAddr op)
  | .setq   => .setq (selOf ob)
  | .resetq => .resetq (selOf ob)
  | .push   => .push (selOf ob)
  | .pop    => .pop (selOf ob)
  | .call   => .call (absAddr op)
  | .ret    => .ret
  | .spsr   => .spsr (operand op 0)
  | .cpsr   => .cpsr (operand op 0)
  | .unused => .unused ob

/-- The instruction at the head of a byte sequence, and the bytes after it. -/
def decode (c : Config) : List Byte → Except DecodeError (Instr × List Byte)
  | []         => .error .truncated
  | ob :: rest =>
    match c.lookup ob with
    | .error e => .error e
    | .ok d    =>
      if rest.length < d.length - 1 then .error .truncated
      else .ok (d.name.instr ob (rest.take (d.length - 1)), rest.drop (d.length - 1))

/-! ## Encoding (R72–R77, R79, R84) -/

/-- The bytes an instruction's encoding occupies: R79 where the source gives them, else the map's (R84). An unused slot
has its own byte. -/
def Config.patternOf (c : Config) (i : Instr) : Option Pattern :=
  match i with
  | .nop        => some (.single 0x00#8)
  | .halt       => some (.single 0x01#8)
  | .lbr _      => some (.single 0x18#8)
  | .adr _ _    => some (.single 0x80#8)
  | .setq _     => some (.family 0b00111#5)
  | .push _     => some (.family 0b01000#5)
  | .pop _      => some (.family 0b01001#5)
  | .ldi _ _    => some (.family 0b11100#5)
  | .sti _ _    => some (.family 0b11101#5)
  | .unused ob  => some (.single ob)
  | .adi _ _    => c.opcodeMap.map fun m => .family m.adi
  | .adm _ _    => c.opcodeMap.map fun m => .family m.adm
  | .subi _ _   => c.opcodeMap.map fun m => .family m.subi
  | .subm _ _   => c.opcodeMap.map fun m => .family m.subm
  | .ani _ _    => c.opcodeMap.map fun m => .family m.ani
  | .ori _ _    => c.opcodeMap.map fun m => .family m.ori
  | .xri _ _    => c.opcodeMap.map fun m => .family m.xri
  | .inc _      => c.opcodeMap.map fun m => .family m.inc
  | .dec _      => c.opcodeMap.map fun m => .family m.dec
  | .shl _      => c.opcodeMap.map fun m => .family m.shl
  | .shlc _     => c.opcodeMap.map fun m => .family m.shlc
  | .shr _      => c.opcodeMap.map fun m => .family m.shr
  | .shrc _     => c.opcodeMap.map fun m => .family m.shrc
  | .ldm _ _    => c.opcodeMap.map fun m => .family m.ldm
  | .resetq _   => c.opcodeMap.map fun m => .family m.resetq
  | .lbrq _ _   => c.opcodeMap.map fun m => .family m.lbrq
  | .sub _ _    => c.opcodeMap.map fun m => .single m.sub
  | .andR _ _   => c.opcodeMap.map fun m => .single m.andR
  | .orR _ _    => c.opcodeMap.map fun m => .single m.orR
  | .xorR _ _   => c.opcodeMap.map fun m => .single m.xorR
  | .cmp _ _    => c.opcodeMap.map fun m => .single m.cmp
  | .ex _ _     => c.opcodeMap.map fun m => .single m.ex
  | .lbrc _     => c.opcodeMap.map fun m => .single m.lbrc
  | .lbrz _     => c.opcodeMap.map fun m => .single m.lbrz
  | .call _     => c.opcodeMap.map fun m => .single m.call
  | .ret        => c.opcodeMap.map fun m => .single m.ret
  | .spsr _     => c.opcodeMap.map fun m => .single m.spsr
  | .cpsr _     => c.opcodeMap.map fun m => .single m.cpsr

/-- The selector an instruction's opcode byte carries (R72, R73); 0 for the formats that carry none. -/
def Instr.selector : Instr → Sel
  | .adi r _ | .subi r _ | .ani r _ | .ori r _ | .xri r _ | .ldi r _ => r
  | .adm r _ | .subm r _ | .ldm r _ | .sti r _ => r
  | .inc r | .dec r | .shl r | .shlc r | .shr r | .shrc r | .push r | .pop r => r
  | .lbrq q _ => q
  | .setq q | .resetq q => q
  | _ => 0#3

/-- The DUAL operand byte `0XXX0YYY`, the ignored bits 0 (R74). -/
def dualByte (x y : Sel) : Byte := 0#1 ++ x ++ 0#1 ++ y

/-- The operand bytes of an instruction: none, one (R74, R76) or the address high byte first (R77). An unused slot skips
as many bytes as its length says; the encoder writes them 0. -/
def Instr.operands (c : Config) : Instr → List Byte
  | .adr x y | .sub x y | .andR x y | .orR x y | .xorR x y | .cmp x y | .ex x y => [dualByte x y]
  | .adi _ v | .subi _ v | .ani _ v | .ori _ v | .xri _ v | .ldi _ v | .spsr v | .cpsr v => [v]
  | .adm _ a | .subm _ a | .ldm _ a | .sti _ a | .lbrq _ a => [hiByte a, loByte a]
  | .lbr a | .lbrc a | .lbrz a | .call a => [hiByte a, loByte a]
  | .unused ob => List.replicate (((c.unusedSlot ob).map fun u => u.mode.length).getD 1 - 1) 0
  | .nop | .halt | .inc _ | .dec _ | .shl _ | .shlc _ | .shr _ | .shrc _ | .setq _ | .resetq _ | .push _ | .pop _
  | .ret => []

/-- The pattern's opcode byte for a selector: `code ++ sel`, or the single byte (R72, R73, R75). -/
def Pattern.byte (s : Sel) : Pattern → Byte
  | .family code => code ++ s
  | .single b    => b

/-- The bytes of an instruction; `none` where the configuration gives it no opcode byte. -/
def encode (c : Config) (i : Instr) : Option (List Byte) :=
  (c.patternOf i).map fun p => p.byte i.selector :: i.operands c

/-! ## The opcode table's words -/

/-- The bytes of a table word: bit 0 is the least significant bit of the first byte. Bits above `nbits` are 0, and the
sequence is as long as the longest instruction. -/
def tableBytes (nbits w : Nat) : List Byte :=
  let v := w % 2 ^ nbits
  [BitVec.ofNat 8 v, BitVec.ofNat 8 (v / 256), BitVec.ofNat 8 (v / 65536)]

/-- The instruction the decoder of the machine built at launch reads from a table word. -/
def decodeTableWord (nbits w : Nat) : Option Instr :=
  match decode Config.launch (tableBytes nbits w) with
  | .ok (i, _) => some i
  | .error _   => none

/-! ## Inspecting the table (R224) -/

/-- A slot's name as spec/opcode_table.json spells it. -/
def Mnemonic.name : Mnemonic → String
  | .nop => "NOP" | .halt => "HALT" | .adr => "ADR" | .adi => "ADI" | .adm => "ADM" | .sub => "SUB"
  | .subi => "SUBI" | .subm => "SUBM" | .andR => "AND" | .ani => "ANI" | .orR => "OR" | .ori => "ORI"
  | .xorR => "XOR" | .xri => "XRI" | .inc => "INC" | .dec => "DEC" | .shl => "SHL" | .shlc => "SHLC"
  | .shr => "SHR" | .shrc => "SHRC" | .cmp => "CMP" | .ex => "EX" | .ldi => "LDI" | .ldm => "LDM"
  | .sti => "STI" | .lbr => "LBR" | .lbrc => "LBRC" | .lbrz => "LBRZ" | .lbrq => "LBRQ" | .setq => "SETQ"
  | .resetq => "RESETQ" | .push => "PUSH" | .pop => "POP" | .call => "CALL" | .ret => "RET" | .spsr => "SPSR"
  | .cpsr => "CPSR" | .unused => "(unused)"

/-- `GetInstructions(mnemonic)`: the descriptors of a name, looked up case-insensitively (R87, R224). -/
def Config.getInstructions (c : Config) (name : String) : List Descriptor :=
  (List.range 256).filterMap fun n =>
    match c.lookup (BitVec.ofNat 8 n) with
    | .ok d    => if d.name.name.toLower == name.toLower then some d else none
    | .error _ => none

end Sys2Proof
end

