-- ==== Sys2Proof/Machine/State.lean ====
section
/-! DEFINITION. The state of CPU1 (spec 10_state.md R20–R38), its values right after reset (R38, 70_reset_and_hazards.md
R220, R221), and the reasons a step can stop (60_exceptions.md R202). -/

namespace Sys2Proof.Machine

/-- The seven flags of the status register (R26). CompareEqual is Carry. Bit 5 names no flag. -/
structure Flags where
  /-- Carry, bit 0. -/
  c : Bool
  /-- Zero, bit 1. -/
  z : Bool
  /-- InterruptDisable, bit 2. -/
  i : Bool
  /-- Decimal, bit 3. -/
  d : Bool
  /-- Break, bit 4. -/
  b : Bool
  /-- Overflow, bit 6. -/
  v : Bool
  /-- Sign, bit 7. -/
  s : Bool
deriving DecidableEq, Repr

/-- The 64 KiB memory (R50): the bytes that are not 0, by rising address. An unlisted address reads 0 (R51). -/
abbrev Memory := List Host.Cell

/-- Everything the spec gives the machine (R38), with the configuration its dispatch table is built from (R36). -/
structure State where
  /-- R0–R7 (R20). -/
  regs   : Vector Byte 8
  /-- The stack pointer (R24). -/
  sp     : Byte
  /-- The program counter (R22). -/
  pc     : Addr
  /-- The status register's flags (R26). -/
  flags  : Flags
  /-- The I/O port; bit n is line Qn (R33). -/
  q      : Byte
  /-- The PC at which the current instruction was fetched (R34). -/
  lastPc : Addr
  /-- The cycle counter (R35). -/
  cycles : Nat
  /-- Memory (R50). -/
  mem    : Memory
  /-- The launch configuration: the dispatch table's contents and the parameters of R7. No step and no host operation
  changes it (R36). -/
  config : Config
deriving DecidableEq, Repr

/-- Why a step stops with a fault. -/
inductive Fault where
  /-- Raised by the fetch when the instruction's bytes or the advanced PC pass $FFFF under `ADDR_WRAP = Fault`
  (R104, R202); the host's `LoadAddress` and `StoreBytes` stop there too. Safe: the spec gives no result there, and
  the machine stops where hardware would go on. -/
  | addressOverflow
deriving DecidableEq, Repr

/-- Why a step has no meaning. -/
inductive Refusal where
  /-- An instruction whose meaning the model does not have; no arm of this model answers it. Safe: the machine stops. -/
  | notModelled (mnemonic : String)
  /-- Raised by the fetch for a byte that neither the source nor the configured opcode map fixes (R85, R102, R202).
  Safe: nothing is claimed of the byte. A complete configuration never meets it. -/
  | unknownOpcode (ob : Byte)
  /-- Raised by the fetch for an unused slot whose length and cycles are not configured (R80, R102, R202). Safe: nothing
  is claimed of the slot. A complete configuration never meets it. -/
  | unusedLength (ob : Byte)
deriving DecidableEq, Repr

/-- All flags false (R38). -/
def Flags.clear : Flags := ⟨false, false, false, false, false, false, false⟩

/-- Right after construction with memory never written, and the Reset that follows: R0–R7, PC, Q, LastPC and Cycles 0,
SP $FF, all flags false (R38, R220); PC is the big-endian word at $FFFC, which reads 0 (R221). Memory lists nothing. -/
def State.reset : State where
  regs := Vector.replicate 8 0#8
  sp := 0xFF#8
  pc := 0x0000#16
  flags := Flags.clear
  q := 0#8
  lastPc := 0x0000#16
  cycles := 0
  mem := []
  config := Config.launch

end Sys2Proof.Machine
end

