-- ==== Sys2Proof/Machine/Ops.lean ====
section
/-! DEFINITION. The named operations over memory, registers, the stack and the program counter (spec 20_memory.md R50–R57,
10_state.md R20–R25). The hardware takes no exception and returns from none (60_exceptions.md R200, R205, R206), so there
is no such operation. -/

namespace Sys2Proof.Machine

/-! ## Memory: one byte (R51, R52) -/

/-- The byte stored at a key, 0 where none is (R51). -/
def Memory.readNat : Memory → Nat → Byte
  | [], _           => 0#8
  | (k, v) :: m, a  => if k = a then v else Memory.readNat m a

/-- The cells of other keys. -/
def Memory.erase : Memory → Nat → Memory
  | [], _          => []
  | (k, v) :: m, a => if k = a then Memory.erase m a else (k, v) :: Memory.erase m a

/-- A cell put before the first greater key. -/
def Memory.insert : Memory → Nat → Byte → Memory
  | [], a, v           => [(a, v)]
  | (k, w) :: m, a, v  => if a < k then (a, v) :: (k, w) :: m else (k, w) :: Memory.insert m a v

/-- `MemRead(addr, 1)` (R51). -/
def Memory.read (m : Memory) (a : Addr) : Byte := Memory.readNat m a.toNat

/-- `MemWrite(addr, 1, v)` (R52). Writing 0, which an unlisted address reads as, lists nothing. -/
def Memory.write (m : Memory) (a : Addr) (v : Byte) : Memory :=
  if v = 0#8 then Memory.erase m a.toNat else Memory.insert (Memory.erase m a.toNat) a.toNat v

/-- The canonical form: keys strictly rising and below 65536, no value 0. -/
def Memory.wf (m : Memory) : Bool :=
  decide (m.Pairwise fun a b => a.1 < b.1) && m.all fun cell => decide (cell.1 < 65536) && cell.2 != 0#8

/-! ## Memory: byte sequences (R53–R55) -/

/-- `MemRead(addr, n)`: the bytes at addr, addr+1, … in that order (R54), each address taken modulo 65536. Whether a
sequence may pass $FFFF is decided before it is read (R104). -/
def Memory.readBytes (m : Memory) (a : Addr) : Nat → List Byte
  | 0     => []
  | n + 1 => m.read a :: Memory.readBytes m (a + 1#16) n

/-- `StoreBytes(addr, bytes)`: consecutive bytes from addr (R54), each address taken modulo 65536. -/
def Memory.writeBytes (m : Memory) (a : Addr) : List Byte → Memory
  | []      => m
  | v :: vs => Memory.writeBytes (m.write a v) (a + 1#16) vs

/-- Two consecutive bytes as a 16-bit value, the high byte at the lower address (R53, R55). -/
def Memory.readWord (m : Memory) (a : Addr) : Addr := wordOf (m.read a) (m.read (a + 1#16))

/-- Bytes a, …, a+n−1 lie within the address space, and so does a+n; or the configuration wraps addresses (R104). -/
def spanFits (c : Config) (a : Addr) (n : Nat) : Bool :=
  decide (a.toNat + n < 65536) || c.addrWrap == .wrap

/-! ## Registers (R20) -/

/-- `R[i]`. -/
def State.reg (s : State) (r : Sel) : Byte := s.regs[r.toFin]

/-- `R[i] <- v`. -/
def State.setReg (s : State) (r : Sel) (v : Byte) : State := { s with regs := s.regs.set r.toFin v }

/-- `PC <- v`. -/
def State.setPc (s : State) (v : Addr) : State := { s with pc := v }

/-- `SP <- v`. -/
def State.setSp (s : State) (v : Byte) : State := { s with sp := v }

/-- `Q <- v`. -/
def State.setQ (s : State) (v : Byte) : State := { s with q := v }

/-- The status register's flags replaced. -/
def State.setFlags (s : State) (f : Flags) : State := { s with flags := f }

/-- `MemRead(addr, 1)`. -/
def State.read (s : State) (a : Addr) : Byte := s.mem.read a

/-- `MemWrite(addr, 1, v)`. -/
def State.write (s : State) (a : Addr) (v : Byte) : State := { s with mem := s.mem.write a v }

/-! ## The stack (R24, R25) -/

/-- `StackAddr(sp) = 0x0100 | zext_16(sp)` (R25). -/
def stackAddr (sp : Byte) : Addr := 0x0100#16 ||| sp.setWidth 16

/-- Store a byte at `StackAddr(SP)`, then `SP <- mod8(SP − 1)` (R24). -/
def State.pushByte (s : State) (v : Byte) : State := (s.write (stackAddr s.sp) v).setSp (s.sp - 1#8)

/-- `SP <- mod8(SP + 1)` (R24); the byte popped is then `topByte`. -/
def State.popByte (s : State) : State := s.setSp (s.sp + 1#8)

/-- The byte at `StackAddr(SP)`. -/
def State.topByte (s : State) : Byte := s.read (stackAddr s.sp)

/-! ## The generic part of a Step (R101) -/

/-- Step 4: `LastPC <- PC`, then `PC <- PC + length`. -/
def State.advance (s : State) (length : Nat) : State :=
  { s with lastPc := s.pc, pc := s.pc + BitVec.ofNat 16 length }

/-- Step 6: `Cycles <- Cycles + cycles`. -/
def State.charge (s : State) (cycles : Nat) : State := { s with cycles := s.cycles + cycles }

end Sys2Proof.Machine
end

