-- ==== Sys2Proof/Machine/Flags.lean ====
section
/-! DEFINITION. Every flag computation of the spec (10_state.md R26–R32, 41_arith_logic.md R140, 43_control_io.md
R180–R183). -/

namespace Sys2Proof.Machine

/-- `updateNZ(v)`: `Z <- (v == 0)`, `S <- (v & 0x80) != 0`; no other flag (R28). -/
def Flags.updateNZ (f : Flags) (v : Byte) : Flags :=
  { f with z := v == 0#8, s := (v &&& 0x80#8) != 0#8 }

/-- `C <- b` (R29). -/
def Flags.setC (f : Flags) (b : Bool) : Flags := { f with c := b }

/-- Carry after a subtraction: minuend ≥ subtrahend as unsigned integers, i.e. no borrow (R140). -/
def noBorrow (minuend subtrahend : Byte) : Bool := decide (subtrahend.toNat ≤ minuend.toNat)

/-- Carry after CMP: set on equal; on unequal cleared or kept, as `CMP_UNEQUAL` says (R138). -/
def compareEqual (unequal : CmpUnequal) (a b : Byte) (carry : Bool) : Bool :=
  if a = b then true
  else match unequal with
    | .clear => false
    | .keep  => carry

/-- The flags whose mask bit is 1 become `b`, the others are kept; bit 5 names no flag (R180, R181). -/
def Flags.assign (f : Flags) (mask : Byte) (b : Bool) : Flags where
  c := if mask.getLsbD 0 then b else f.c
  z := if mask.getLsbD 1 then b else f.z
  i := if mask.getLsbD 2 then b else f.i
  d := if mask.getLsbD 3 then b else f.d
  b := if mask.getLsbD 4 then b else f.b
  v := if mask.getLsbD 6 then b else f.v
  s := if mask.getLsbD 7 then b else f.s

/-- The packed view of the status register; bit 5 reads 0 (R27). -/
def Flags.pack (f : Flags) : Byte :=
  BitVec.ofBool f.s ++ BitVec.ofBool f.v ++ 0#1 ++ BitVec.ofBool f.b ++ BitVec.ofBool f.d ++ BitVec.ofBool f.i ++
    BitVec.ofBool f.z ++ BitVec.ofBool f.c

/-- The flags of a packed byte, bit 5 dropped (R26, R27). -/
def Flags.unpack (v : Byte) : Flags where
  c := v.getLsbD 0
  z := v.getLsbD 1
  i := v.getLsbD 2
  d := v.getLsbD 3
  b := v.getLsbD 4
  v := v.getLsbD 6
  s := v.getLsbD 7

/-- A result written to a register with `updateNZ` of it. -/
def State.setResult (s : State) (r : Sel) (v : Byte) : State :=
  (s.setReg r v).setFlags (s.flags.updateNZ v)

/-- A result written to a register with Carry set and `updateNZ` of the result. -/
def State.setResultC (s : State) (r : Sel) (v : Byte) (carry : Bool) : State :=
  (s.setReg r v).setFlags ((s.flags.setC carry).updateNZ v)

end Sys2Proof.Machine
end

