-- ==== Sys2Proof/Machine/Operands.lean ====
section
/-! DEFINITION. The operand forms of the spec (30_encoding.md R72–R77, 42_load_store.md R163) and the ALU's values
(41_arith_logic.md R140, R141). An immediate and an absolute address are the instruction's own fields; a register operand
is `State.reg`; a memory operand is the byte at the absolute address; a line is one bit of Q. -/

namespace Sys2Proof.Machine

/-- The byte of an absolute operand: `MemRead(addr, 1)` (R163). -/
def State.absOperand (s : State) (addr : Addr) : Byte := s.read addr

/-- The mask of I/O line q: `1 << q` (R174). -/
def lineMask (q : Sel) : Byte := 1#8 <<< q.toNat

/-- `Q[q] == 1` (R173). -/
def State.line (s : State) (q : Sel) : Bool := s.q.getLsbD q.toNat

/-- `mod8(v << 1)`, the old bit 7 lost, bit 0 the given bit (R134, R135, R141). -/
def shiftLeft (v : Byte) (inBit : Bool) : Byte := (v <<< 1) ||| (if inBit then 0x01#8 else 0x00#8)

/-- `v >> 1` with zero fill, then bit 7 the given bit (R136, R137, R141). -/
def shiftRight (v : Byte) (inBit : Bool) : Byte := (v >>> 1) ||| (if inBit then 0x80#8 else 0x00#8)

/-- `PC <- addr` if the condition holds; else PC has already advanced (R184). -/
def State.branchIf (s : State) (cond : Bool) (addr : Addr) : State := if cond then s.setPc addr else s

end Sys2Proof.Machine
end

