-- ==== Sys2Proof/Machine/Arith.lean ====
section
/-! DEFINITION. Addition, subtraction, increment and decrement (spec 41_arith_logic.md R120–R125, R132, R133). Each
meaning is step 5 of R101: PC has already advanced. -/

namespace Sys2Proof.Machine

/-- `dst <- mod8(dst + v); updateNZ`: C and V unchanged (R140). -/
def State.addTo (s : State) (dst : Sel) (v : Byte) : State := s.setResult dst (s.reg dst + v)

/-- `dst <- mod8(dst − v); C <- (dst ≥ v); updateNZ`: V unchanged (R140). -/
def State.subFrom (s : State) (dst : Sel) (v : Byte) : State :=
  s.setResultC dst (s.reg dst - v) (noBorrow (s.reg dst) v)

/-- ADR (R120). -/
def execAdr (x y : Sel) (s : State) : Host.Outcome State Fault Refusal := .next (s.addTo x (s.reg y))

/-- ADI (R121). -/
def execAdi (r : Sel) (imm : Byte) (s : State) : Host.Outcome State Fault Refusal := .next (s.addTo r imm)

/-- ADM (R122). -/
def execAdm (r : Sel) (addr : Addr) (s : State) : Host.Outcome State Fault Refusal :=
  .next (s.addTo r (s.absOperand addr))

/-- SUB: the minuend and destination are R[X], the subtrahend R[Y] (R123). -/
def execSub (x y : Sel) (s : State) : Host.Outcome State Fault Refusal := .next (s.subFrom x (s.reg y))

/-- SUBI (R124). -/
def execSubi (r : Sel) (imm : Byte) (s : State) : Host.Outcome State Fault Refusal := .next (s.subFrom r imm)

/-- SUBM (R125). -/
def execSubm (r : Sel) (addr : Addr) (s : State) : Host.Outcome State Fault Refusal :=
  .next (s.subFrom r (s.absOperand addr))

/-- INC (R132). -/
def execInc (r : Sel) (s : State) : Host.Outcome State Fault Refusal := .next (s.setResult r (s.reg r + 1#8))

/-- DEC: Carry is not written (R133). -/
def execDec (r : Sel) (s : State) : Host.Outcome State Fault Refusal := .next (s.setResult r (s.reg r - 1#8))

end Sys2Proof.Machine
end

