-- ==== Sys2Proof/Machine/Control.lean ====
section
/-! DEFINITION. No-ops, HALT, branches and I/O lines (spec 40_execution.md R106–R108, 43_control_io.md R170–R175). On
entry PC is the address of the next instruction. -/

namespace Sys2Proof.Machine

/-- NOP: nothing beyond the generic Step (R107). -/
def execNop (s : State) : Host.Outcome State Fault Refusal := .next s

/-- An unused slot: behaves as a NOP with the slot's length and cycles (R80, R106). -/
def execUnused (_ob : Byte) (s : State) : Host.Outcome State Fault Refusal := .next s

/-- HALT: `PC <- LastPC`, the address of HALT itself (R108). -/
def execHalt (s : State) : Host.Outcome State Fault Refusal := .next (s.setPc s.lastPc)

/-- LBR (R170). -/
def execLbr (addr : Addr) (s : State) : Host.Outcome State Fault Refusal := .next (s.setPc addr)

/-- LBRC: taken if Carry (R171). -/
def execLbrc (addr : Addr) (s : State) : Host.Outcome State Fault Refusal := .next (s.branchIf s.flags.c addr)

/-- LBRZ: taken if Zero (R172). -/
def execLbrz (addr : Addr) (s : State) : Host.Outcome State Fault Refusal := .next (s.branchIf s.flags.z addr)

/-- LBRQ: taken if line q is set (R173). -/
def execLbrq (q : Sel) (addr : Addr) (s : State) : Host.Outcome State Fault Refusal :=
  .next (s.branchIf (s.line q) addr)

/-- SETQ (R174). -/
def execSetq (q : Sel) (s : State) : Host.Outcome State Fault Refusal := .next (s.setQ (s.q ||| lineMask q))

/-- RESETQ (R175). -/
def execResetq (q : Sel) (s : State) : Host.Outcome State Fault Refusal := .next (s.setQ (s.q &&& ~~~(lineMask q)))

end Sys2Proof.Machine
end

