-- ==== Sys2Proof/Machine/LoadStore.lean ====
section
/-! DEFINITION. Loads and stores (spec 42_load_store.md R160–R162). No flag changes. -/

namespace Sys2Proof.Machine

/-- LDI (R160). -/
def execLdi (r : Sel) (imm : Byte) (s : State) : Host.Outcome State Fault Refusal := .next (s.setReg r imm)

/-- LDM (R161). -/
def execLdm (r : Sel) (addr : Addr) (s : State) : Host.Outcome State Fault Refusal :=
  .next (s.setReg r (s.absOperand addr))

/-- STI (R162). -/
def execSti (r : Sel) (addr : Addr) (s : State) : Host.Outcome State Fault Refusal := .next (s.write addr (s.reg r))

end Sys2Proof.Machine
end

