-- ==== Sys2Proof/Machine/Logic.lean ====
section
/-! DEFINITION. Logic, shifts, compare and exchange (spec 41_arith_logic.md R126–R131, R134–R139). -/

namespace Sys2Proof.Machine

/-- AND: the result to R[X] (R126). -/
def execAndR (x y : Sel) (s : State) : Host.Outcome State Fault Refusal := .next (s.setResult x (s.reg x &&& s.reg y))

/-- ANI (R127). -/
def execAni (r : Sel) (imm : Byte) (s : State) : Host.Outcome State Fault Refusal :=
  .next (s.setResult r (s.reg r &&& imm))

/-- OR: the result to R[X] (R128). -/
def execOrR (x y : Sel) (s : State) : Host.Outcome State Fault Refusal := .next (s.setResult x (s.reg x ||| s.reg y))

/-- ORI (R129). -/
def execOri (r : Sel) (imm : Byte) (s : State) : Host.Outcome State Fault Refusal :=
  .next (s.setResult r (s.reg r ||| imm))

/-- XOR: the result to R[X] (R130). -/
def execXorR (x y : Sel) (s : State) : Host.Outcome State Fault Refusal := .next (s.setResult x (s.reg x ^^^ s.reg y))

/-- XRI (R131). -/
def execXri (r : Sel) (imm : Byte) (s : State) : Host.Outcome State Fault Refusal :=
  .next (s.setResult r (s.reg r ^^^ imm))

/-- SHL: Carry takes bit 7 of the value before the shift (R134). -/
def execShl (r : Sel) (s : State) : Host.Outcome State Fault Refusal :=
  .next (s.setResultC r (shiftLeft (s.reg r) false) ((s.reg r).getLsbD 7))

/-- SHLC: Carry comes in at bit 0 and is not updated (R135). -/
def execShlc (r : Sel) (s : State) : Host.Outcome State Fault Refusal :=
  .next (s.setResult r (shiftLeft (s.reg r) s.flags.c))

/-- SHR: Carry takes bit 0 of the value before the shift (R136). -/
def execShr (r : Sel) (s : State) : Host.Outcome State Fault Refusal :=
  .next (s.setResultC r (shiftRight (s.reg r) false) ((s.reg r).getLsbD 0))

/-- SHRC: Carry comes in at bit 7 and is not updated (R137). -/
def execShrc (r : Sel) (s : State) : Host.Outcome State Fault Refusal :=
  .next (s.setResult r (shiftRight (s.reg r) s.flags.c))

/-- CMP: Carry only; the registers are unchanged (R138). -/
def execCmp (x y : Sel) (s : State) : Host.Outcome State Fault Refusal :=
  .next (s.setFlags (s.flags.setC (compareEqual s.config.cmpUnequal (s.reg x) (s.reg y) s.flags.c)))

/-- EX: both registers are read before either is written (R139). -/
def execEx (x y : Sel) (s : State) : Host.Outcome State Fault Refusal :=
  .next ((s.setReg x (s.reg y)).setReg y (s.reg x))

end Sys2Proof.Machine
end

