-- ==== Sys2Proof/Machine/Stack.lean ====
section
/-! DEFINITION. The stack and subroutine instructions (spec 43_control_io.md R176–R179). SP wraps modulo 256, unsignalled. -/

namespace Sys2Proof.Machine

/-- PUSH (R176). -/
def execPush (r : Sel) (s : State) : Host.Outcome State Fault Refusal := .next (s.pushByte (s.reg r))

/-- POP: `updateNZ` of the byte popped (R177). -/
def execPop (r : Sel) (s : State) : Host.Outcome State Fault Refusal :=
  .next (s.popByte.setResult r s.popByte.topByte)

/-- CALL: the high byte of the return address is pushed first, so it lies at the higher stack address (R56, R178). -/
def execCall (addr : Addr) (s : State) : Host.Outcome State Fault Refusal :=
  .next (((s.pushByte (hiByte s.pc)).pushByte (loByte s.pc)).setPc addr)

/-- RET: the low byte is popped first; no flag changes (R179). -/
def execRet (s : State) : Host.Outcome State Fault Refusal :=
  .next (s.popByte.popByte.setPc (wordOf s.popByte.popByte.topByte s.popByte.topByte))

end Sys2Proof.Machine
end

