-- ==== Sys2Proof/Machine/Status.lean ====
section
/-! DEFINITION. Status register access (spec 43_control_io.md R180–R183). -/

namespace Sys2Proof.Machine

/-- SPSR: the flags selected by the mask become true (R182). -/
def execSpsr (mask : Byte) (s : State) : Host.Outcome State Fault Refusal := .next (s.setFlags (s.flags.assign mask true))

/-- CPSR: the flags selected by the mask become false (R183). -/
def execCpsr (mask : Byte) (s : State) : Host.Outcome State Fault Refusal :=
  .next (s.setFlags (s.flags.assign mask false))

end Sys2Proof.Machine
end

