-- ==== Sys2Proof/Machine/Dispatch.lean ====
section
/-! DEFINITION. Dispatch: the handler of each instruction (spec 40_execution.md R101 step 5, R102). -/

namespace Sys2Proof.Machine

/-- Run an instruction's handler on a state whose PC has advanced past it and whose LastPC is its address (R101). -/
def exec (i : Instr) (s : State) : Host.Outcome State Fault Refusal :=
  match i with
  | .nop => Sys2Proof.Machine.execNop s
  | .halt => Sys2Proof.Machine.execHalt s
  | .adr x y => Sys2Proof.Machine.execAdr x y s
  | .adi r imm => Sys2Proof.Machine.execAdi r imm s
  | .adm r addr => Sys2Proof.Machine.execAdm r addr s
  | .sub x y => Sys2Proof.Machine.execSub x y s
  | .subi r imm => Sys2Proof.Machine.execSubi r imm s
  | .subm r addr => Sys2Proof.Machine.execSubm r addr s
  | .andR x y => Sys2Proof.Machine.execAndR x y s
  | .ani r imm => Sys2Proof.Machine.execAni r imm s
  | .orR x y => Sys2Proof.Machine.execOrR x y s
  | .ori r imm => Sys2Proof.Machine.execOri r imm s
  | .xorR x y => Sys2Proof.Machine.execXorR x y s
  | .xri r imm => Sys2Proof.Machine.execXri r imm s
  | .inc r => Sys2Proof.Machine.execInc r s
  | .dec r => Sys2Proof.Machine.execDec r s
  | .shl r => Sys2Proof.Machine.execShl r s
  | .shlc r => Sys2Proof.Machine.execShlc r s
  | .shr r => Sys2Proof.Machine.execShr r s
  | .shrc r => Sys2Proof.Machine.execShrc r s
  | .cmp x y => Sys2Proof.Machine.execCmp x y s
  | .ex x y => Sys2Proof.Machine.execEx x y s
  | .ldi r imm => Sys2Proof.Machine.execLdi r imm s
  | .ldm r addr => Sys2Proof.Machine.execLdm r addr s
  | .sti r addr => Sys2Proof.Machine.execSti r addr s
  | .lbr addr => Sys2Proof.Machine.execLbr addr s
  | .lbrc addr => Sys2Proof.Machine.execLbrc addr s
  | .lbrz addr => Sys2Proof.Machine.execLbrz addr s
  | .lbrq q addr => Sys2Proof.Machine.execLbrq q addr s
  | .setq q => Sys2Proof.Machine.execSetq q s
  | .resetq q => Sys2Proof.Machine.execResetq q s
  | .push r => Sys2Proof.Machine.execPush r s
  | .pop r => Sys2Proof.Machine.execPop r s
  | .call addr => Sys2Proof.Machine.execCall addr s
  | .ret => Sys2Proof.Machine.execRet s
  | .spsr mask => Sys2Proof.Machine.execSpsr mask s
  | .cpsr mask => Sys2Proof.Machine.execCpsr mask s
  | .unused ob => Sys2Proof.Machine.execUnused ob s

end Sys2Proof.Machine
end

