-- ==== Sys2Proof/Machine/Fetch.lean ====
section
/-! DEFINITION. Fetching and decoding the instruction at PC (spec 40_execution.md R101 steps 1–3, R102–R104, 60_exceptions.md
R204). -/

namespace Sys2Proof.Machine

/-- An instruction fetched, with the descriptor of its slot. -/
structure Fetched where
  instr : Instr
  desc  : Descriptor
deriving DecidableEq, Repr

/-- The refusal a decoding error is. A fetch reads all the bytes its descriptor has, so `truncated` does not come up; it
would be refused with the byte's name. -/
def refusalOf (ob : Byte) : DecodeError → Refusal
  | .unknownOpcode b => .unknownOpcode b
  | .unusedLength b  => .unusedLength b
  | .truncated       => .unknownOpcode ob

/-- The opcode byte at PC (R101 step 1). -/
def State.opcode (s : State) : Byte := s.read s.pc

/-- The operand bytes of a descriptor at PC + 1 (R101 step 3). -/
def State.operandBytes (s : State) (d : Descriptor) : List Byte := s.mem.readBytes (s.pc + 1#16) (d.length - 1)

/-- Fetch and decode at PC: refuse a byte the configuration does not fix; then fault if the bytes or the advanced PC pass
$FFFF under `ADDR_WRAP = Fault`; else the slot's instruction with its operands (R204). Every byte is read before the
handler runs (R66, R103). -/
def fetch (s : State) : Host.Outcome Fetched Fault Refusal :=
  match s.config.lookup s.opcode with
  | .error e => .refused (refusalOf s.opcode e)
  | .ok d    =>
    if spanFits s.config s.pc d.length then .next ⟨d.name.instr s.opcode (s.operandBytes d), d⟩
    else .fault .addressOverflow

/-- The state with the bytes of a table word where the next fetch reads: at PC, PC+1 and PC+2 modulo 65536. -/
def State.placeAtPc (s : State) (bytes : List Byte) : State := { s with mem := s.mem.writeBytes s.pc bytes }

end Sys2Proof.Machine
end

