-- ==== Sys2Proof/Machine/Step.lean ====
section
/-! DEFINITION. The Step (spec 40_execution.md R100, R101, R105): one atomic transition. -/

namespace Sys2Proof.Machine

/-- One Step: fetch and decode; `LastPC <- PC`, `PC <- PC + length`; run the handler; charge the descriptor's cycles
whatever the handler did (R101). A Step that faults or is refused changes nothing (R104, R205). -/
def step (s : State) : Host.Outcome State Fault Refusal :=
  match fetch s with
  | .fault r   => .fault r
  | .refused r => .refused r
  | .next f    =>
    match exec f.instr (s.advance f.desc.length) with
    | .next t    => .next (t.charge f.desc.cycles)
    | .fault r   => .fault r
    | .refused r => .refused r

/-- The state with an opcode table's word where `step` fetches its next instruction (notes/assumptions 23): a program is
loaded into memory from outside the machine (R225). -/
def State.withFetchWord (s : State) (nbits w : Nat) : State := s.placeAtPc (tableBytes nbits w)

end Sys2Proof.Machine
end

