-- ==== Sys2Proof/Machine/HostOps.lean ====
section
/-! DEFINITION. What the host may do to the machine between Steps (spec 70_reset_and_hazards.md R220–R225): construction,
Reset, SetPC, direct register and memory writes, program loading, inspection. The host has no operation that writes
LastPC, Cycles or the configuration (R36, R224). `Lookup` and `GetInstructions` are `Config.lookup` and
`Config.getInstructions`. -/

namespace Sys2Proof.Machine

/-- `new(arch, memory)`: registers zeroed, SP $FF, PC 0, the memory passed in (R220). -/
def State.construct (c : Config) (m : Memory) : State where
  regs := Vector.replicate 8 0#8
  sp := 0xFF#8
  pc := 0x0000#16
  flags := Flags.clear
  q := 0#8
  lastPc := 0x0000#16
  cycles := 0
  mem := m
  config := c

/-- The reset vector's address (R6, R221). -/
def resetVector : Addr := 0xFFFC#16

/-- `Reset()`: `PC <- LoadAddress($FFFC)`; nothing else changes and no cycle is charged (R221). -/
def State.hostReset (s : State) : State := s.setPc (s.mem.readWord resetVector)

/-- `LoadAddress(addr)`, big-endian; at $FFFF its second byte lies beyond memory, which `ADDR_WRAP` governs (R53). -/
def State.loadAddress (s : State) (a : Addr) : Host.Outcome Addr Fault Refusal :=
  if a = 0xFFFF#16 ∧ s.config.addrWrap = .fault then .fault .addressOverflow else .next (s.mem.readWord a)

/-- `SetPC(addr)` (R224). -/
def State.hostSetPc (s : State) (a : Addr) : State := s.setPc a

/-- A register the host may write directly (R224). -/
inductive HostReg where
  | r (i : Sel)
  | sp
  | q
deriving DecidableEq, Repr

/-- Direct register write (R224). -/
def State.hostWriteReg (s : State) (reg : HostReg) (v : Byte) : State :=
  match reg with
  | .r i => s.setReg i v
  | .sp  => s.setSp v
  | .q   => s.setQ v

/-- The byte with one bit: the mask that names a flag by its number in the status register (R26). -/
def flagMask (bit : Sel) : Byte := 1#8 <<< bit.toNat

/-- Direct write of one flag, named by its bit number; bit 5 names none (R26, R224). -/
def State.hostWriteFlag (s : State) (bit : Sel) (b : Bool) : State := s.setFlags (s.flags.assign (flagMask bit) b)

/-- Direct memory write (R224). -/
def State.hostWrite (s : State) (a : Addr) (v : Byte) : State := s.write a v

/-- `StoreBytes(addr, bytes)` (R54, R224). Bytes past $FFFF are governed by `ADDR_WRAP` (notes/assumptions 24). -/
def State.storeBytes (s : State) (a : Addr) (bytes : List Byte) : Host.Outcome State Fault Refusal :=
  if a.toNat + bytes.length ≤ 65536 ∨ s.config.addrWrap = .wrap then
    .next { s with mem := s.mem.writeBytes a bytes }
  else .fault .addressOverflow

/-- Program loading: `StoreBytes(origin, blob)`, then `PC <- origin` (R225). -/
def State.loadProgram (s : State) (origin : Addr) (blob : List Byte) : Host.Outcome State Fault Refusal :=
  match s.storeBytes origin blob with
  | .next t    => .next (t.hostSetPc origin)
  | .fault r   => .fault r
  | .refused r => .refused r

/-- The packed status byte the host inspects (R27, R224). -/
def State.psr (s : State) : Byte := s.flags.pack

end Sys2Proof.Machine
end

