-- ==== Sys2Proof/Safety.lean ====
section
/-! DEFINITION. The terms claims use: runs, the halted state, the end of a run, states a run may meet, and what the parts
of two states have in common (spec 40_execution.md R104, R109, 70_reset_and_hazards.md R226). -/

namespace Sys2Proof.Machine

/-- The invariant of the machine's states: memory in canonical form, and an opcode map R84 admits. -/
structure State.Inv (s : State) : Prop where
  memWf    : s.mem.wf = true
  admitted : s.config.admitted = true

/-- `n` Steps from `s` all answer a next state, the last of them `t`. -/
inductive Runs : Nat → State → State → Prop where
  | zero (s : State) : Runs 0 s s
  | succ {n : Nat} {s t u : State} : step s = .next t → Runs n t u → Runs (n + 1) s u

/-- A run is safe for `n` Steps if it meets no fault and no refusal. -/
def State.SafeFor (s : State) (n : Nat) : Prop := ∃ t, Runs n s t

/-- The halted state: the byte at PC is HALT's and PC is not $FFFF (R109). -/
def State.Halted (s : State) : Prop := s.read s.pc = 0x01#8 ∧ s.pc ≠ 0xFFFF#16

/-- The run of `n` Steps from `s` has ended in `t` (R226): `t` is halted, and the last of those Steps executed the HALT at
`t`'s PC. Cycles at the end is that of `n`. -/
def State.Ended (s : State) (n : Nat) (t : State) : Prop :=
  t.Halted ∧ ∃ m p, n = m + 1 ∧ Runs m s p ∧ step p = .next t ∧ p.read p.pc = 0x01#8 ∧ p.pc = t.pc

/-- An instruction of `n` bytes at PC ends below the top of memory, or addresses wrap (R104). -/
def State.Fits (s : State) (n : Nat) : Prop := s.pc.toNat + n < 65536 ∨ s.config.addrWrap = .wrap

/-- The k-th byte of the instruction at PC. -/
def State.byteAt (s : State) (k : Nat) : Byte := s.read (s.pc + BitVec.ofNat 16 k)

/-- What every handler leaves alone: LastPC, Cycles and the configuration (R34, R35, R36). -/
structure HandlerFrame (s t : State) : Prop where
  lastPc : t.lastPc = s.lastPc
  cycles : t.cycles = s.cycles
  config : t.config = s.config

/-- Every byte of memory reads as before. -/
def SameMemory (s t : State) : Prop := ∀ a : Addr, t.read a = s.read a

/-- Every byte of memory but those at the given addresses reads as before. -/
def SameMemoryBut (addrs : List Addr) (s t : State) : Prop := ∀ a : Addr, a ∉ addrs → t.read a = s.read a

/-- Every general register but those given is as before. -/
def SameRegsBut (rs : List Sel) (s t : State) : Prop := ∀ k : Sel, k ∉ rs → t.reg k = s.reg k

/-- The frame of an instruction that writes general registers `rs` and flags, and nothing else. -/
structure RegisterFrame (rs : List Sel) (s t : State) : Prop where
  regs   : SameRegsBut rs s t
  memory : SameMemory s t
  sp     : t.sp = s.sp
  q      : t.q = s.q
  pc     : t.pc = s.pc
  rest   : HandlerFrame s t

/-- The frame of an instruction that may write SP, PC, registers `rs`, flags and the bytes at `addrs`, and nothing else. -/
structure StackFrame (rs : List Sel) (addrs : List Addr) (s t : State) : Prop where
  regs   : SameRegsBut rs s t
  memory : SameMemoryBut addrs s t
  q      : t.q = s.q
  rest   : HandlerFrame s t

/-- What every Step does beside its handler: LastPC is the instruction's address, the slot's cycles are added, the
configuration is kept (R101). -/
structure Charged (cycles : Nat) (s t : State) : Prop where
  lastPc : t.lastPc = s.pc
  cycles : t.cycles = s.cycles + cycles
  config : t.config = s.config

/-- The state with other values of the flags that are storage only: I, D, B and V (R31, R32). -/
def State.withStorageFlags (s : State) (i d b v : Bool) : State :=
  s.setFlags { s.flags with i := i, d := d, b := b, v := v }

/-- The state with other values of LastPC and Cycles (R34, R35). -/
def State.withCounters (s : State) (lastPc : Addr) (cycles : Nat) : State :=
  { s with lastPc := lastPc, cycles := cycles }

/-- Z and S are `updateNZ` of the value v, in R28's terms; every flag but Z, S is the one of `f`. -/
structure NZOf (v : Nat) (f g : Flags) : Prop where
  z : g.z = decide (v = 0)
  s : g.s = decide (128 ≤ v)
  c : g.c = f.c
  i : g.i = f.i
  d : g.d = f.d
  b : g.b = f.b
  v : g.v = f.v

end Sys2Proof.Machine
end

