-- ==== Sys2Proof/Certificates/Slice0/Obligations.lean ====
section
/-! DEFINITION. The statements about the machine. Values are stated as the exact integers of spec 00_scope.md R9, not by
the machine's own operations. Every statement holds for every configuration unless it names one. -/

open Sys2Proof Sys2Proof.Machine

/-! ## Reset, the invariant, configuration -/

/-- R38, R220, R221. PC 0 follows from the vector read from empty memory; LastPC 0 is the spec's D10; that Reset keeps the
construction values is its D9. -/
def Obligations.ResetStateValues : Prop :=
  (∀ r : Sel, State.reset.reg r = 0#8) ∧ State.reset.sp = 0xFF#8 ∧ State.reset.pc = 0x0000#16 ∧
  State.reset.flags = ⟨false, false, false, false, false, false, false⟩ ∧ State.reset.q = 0#8 ∧
  State.reset.lastPc = 0x0000#16 ∧ State.reset.cycles = 0 ∧ (∀ a : Addr, State.reset.read a = 0#8) ∧
  State.reset = (State.construct Config.launch []).hostReset

/-- The invariant holds at reset, and the configuration fixes every slot (R78). -/
def Obligations.ResetMeetsInvariant : Prop :=
  State.reset.Inv ∧ State.reset.config.complete = true

/-- Memory keeps its canonical form and the opcode map stays one R84 admits, at every Step from every such state. -/
def Obligations.StepKeepsInvariant : Prop :=
  ∀ s t : State, s.Inv → step s = .next t → t.Inv

/-- R36: the dispatch table is configuration; neither a Step nor a host operation changes it. -/
def Obligations.ConfigurationNeverChanges : Prop :=
  (∀ s t : State, step s = .next t → t.config = s.config) ∧
  ∀ s : State, s.hostReset.config = s.config ∧ (∀ a, (s.hostSetPc a).config = s.config) ∧
    (∀ reg v, (s.hostWriteReg reg v).config = s.config) ∧ (∀ bit b, (s.hostWriteFlag bit b).config = s.config) ∧
    (∀ a v, (s.hostWrite a v).config = s.config) ∧
    ∀ a vs t, s.loadProgram a vs = .next t → t.config = s.config

/-! ## Memory -/

/-- R51, R52: a byte read is the byte most recently stored, 0 if none was; a store changes no other byte and no other
part of the state. -/
def Obligations.ReadReturnsLastStore : Prop :=
  (∀ a : Addr, Memory.read [] a = 0#8) ∧
  ∀ (s : State) (a b : Addr) (v : Byte), (s.write a v).read b = (if b = a then v else s.read b) ∧
    (s.write a v).regs = s.regs ∧ (s.write a v).sp = s.sp ∧ (s.write a v).pc = s.pc ∧
    (s.write a v).flags = s.flags ∧ (s.write a v).q = s.q ∧ (s.write a v).lastPc = s.lastPc ∧
    (s.write a v).cycles = s.cycles ∧ (s.write a v).config = s.config

/-- Writes keep the canonical form, and in it memories that read alike are equal. -/
def Obligations.MemoryFormIsCanonical : Prop :=
  (∀ (m : Memory) (a : Addr) (v : Byte), m.wf = true → (m.write a v).wf = true) ∧
  ∀ m n : Memory, m.wf = true → n.wf = true → (∀ a : Addr, m.read a = n.read a) → m = n

/-- R54: `LoadBytes` reads consecutive bytes in order, `StoreBytes` writes them; within the address space. -/
def Obligations.ByteSequencesInOrder : Prop :=
  (∀ (m : Memory) (a : Addr) (n : Nat), (m.readBytes a n).length = n) ∧
  (∀ (m : Memory) (a : Addr) (n k : Nat), k < n → a.toNat + n ≤ 65536 →
    (m.readBytes a n)[k]? = some (m.read (BitVec.ofNat 16 (a.toNat + k)))) ∧
  ∀ (s : State) (a : Addr) (vs : List Byte), a.toNat + vs.length ≤ 65536 →
    ∃ t, s.storeBytes a vs = .next t ∧ t = { s with mem := t.mem } ∧
      ∀ b : Addr, t.read b =
        if a.toNat ≤ b.toNat ∧ b.toNat < a.toNat + vs.length then vs.getD (b.toNat - a.toNat) 0#8 else s.read b

/-- R53, R57: `LoadAddress` is big-endian and reads bytes written singly. Past the top it stops under `ADDR_WRAP = Fault`
and wraps under `Wrap` (the spec's D8). -/
def Obligations.LoadAddressIsBigEndian : Prop :=
  (∀ (s : State) (a : Addr), a ≠ 0xFFFF#16 → ∃ w, s.loadAddress a = .next w ∧
    w.toNat = (s.read a).toNat * 256 + (s.read (a + 1#16)).toNat) ∧
  (∀ (s : State) (a : Addr), a ≠ 0xFFFF#16 → ((s.write a 0x12#8).write (a + 1#16) 0x34#8).loadAddress a = .next 0x1234#16) ∧
  (∀ s : State, s.config.addrWrap = .fault → s.loadAddress 0xFFFF#16 = .fault .addressOverflow) ∧
  ∀ s : State, s.config.addrWrap = .wrap → ∃ w, s.loadAddress 0xFFFF#16 = .next w ∧
    w.toNat = (s.read 0xFFFF#16).toNat * 256 + (s.read 0x0000#16).toNat

/-- R25: the stack effective address is $0100 + SP, in $0100–$01FF, one address for each SP. -/
def Obligations.StackAddressInPageOne : Prop :=
  ∀ a b : Byte, (stackAddr a).toNat = 0x100 + a.toNat ∧ 0x100 ≤ (stackAddr a).toNat ∧ (stackAddr a).toNat ≤ 0x1FF ∧
    (stackAddr a = stackAddr b → a = b)

/-! ## The host -/

/-- R221: Reset loads PC from the big-endian vector at $FFFC and changes nothing else (the latter the spec's D9). -/
def Obligations.HostResetLoadsVectorOnly : Prop :=
  ∀ s : State, s.hostReset = { s with pc := s.hostReset.pc } ∧
    s.hostReset.pc.toNat = (s.read 0xFFFC#16).toNat * 256 + (s.read 0xFFFD#16).toNat

/-- R225: loading a program stores its bytes from the origin and sets PC to it; registers, flags and counters are kept. -/
def Obligations.LoadProgramPlacesBytes : Prop :=
  ∀ (s : State) (origin : Addr) (blob : List Byte), origin.toNat + blob.length ≤ 65536 →
    ∃ t, s.loadProgram origin blob = .next t ∧ t.pc = origin ∧
      (∀ k : Nat, k < blob.length → t.read (BitVec.ofNat 16 (origin.toNat + k)) = blob.getD k 0#8) ∧
      (∀ b : Addr, b.toNat < origin.toNat ∨ origin.toNat + blob.length ≤ b.toNat → t.read b = s.read b) ∧
      t = { s with pc := t.pc, mem := t.mem }

/-- R224: the direct writes set one register, one flag or one byte and change nothing else; SetPC sets PC only. -/
def Obligations.HostWritesOneThing : Prop :=
  ∀ s : State,
    (∀ a, s.hostSetPc a = { s with pc := a }) ∧
    (∀ (r k : Sel) (v : Byte), (s.hostWriteReg (.r r) v).reg k = (if k = r then v else s.reg k) ∧
      s.hostWriteReg (.r r) v = { s with regs := (s.hostWriteReg (.r r) v).regs }) ∧
    (∀ v, s.hostWriteReg .sp v = { s with sp := v } ∧ s.hostWriteReg .q v = { s with q := v }) ∧
    (∀ b, (s.hostWriteFlag 0#3 b).flags = { s.flags with c := b } ∧
      (s.hostWriteFlag 1#3 b).flags = { s.flags with z := b } ∧
      (s.hostWriteFlag 2#3 b).flags = { s.flags with i := b } ∧
      (s.hostWriteFlag 3#3 b).flags = { s.flags with d := b } ∧
      (s.hostWriteFlag 4#3 b).flags = { s.flags with b := b } ∧
      (s.hostWriteFlag 5#3 b).flags = s.flags ∧
      (s.hostWriteFlag 6#3 b).flags = { s.flags with v := b } ∧
      (s.hostWriteFlag 7#3 b).flags = { s.flags with s := b }) ∧
    (∀ bit b, s.hostWriteFlag bit b = { s with flags := (s.hostWriteFlag bit b).flags }) ∧
    ∀ (a b : Addr) (v : Byte), (s.hostWrite a v).read b = (if b = a then v else s.read b) ∧
      s.hostWrite a v = { s with mem := (s.hostWrite a v).mem }

/-- R26, R27: the packed view weighs each flag by its bit; bit 5 reads 0 (the spec's D11); unpacking gives the flags back. -/
def Obligations.PackedStatusView : Prop :=
  (∀ f : Flags, f.pack.toNat = f.c.toNat + 2 * f.z.toNat + 4 * f.i.toNat + 8 * f.d.toNat + 16 * f.b.toNat +
    64 * f.v.toNat + 128 * f.s.toNat) ∧
  (∀ f : Flags, Flags.unpack f.pack = f) ∧ ∀ v : Byte, (Flags.unpack v).pack = v &&& 0xDF#8

/-! ## The dispatch table, decoding and encoding -/

/-- Words written out from R79, R74, R77 decode to the instructions they stand for, in every configuration. -/
def Obligations.GivenWordsDecode : Prop :=
  ∀ c : Config,
    decode c [0x00#8] = .ok (.nop, []) ∧ decode c [0x01#8] = .ok (.halt, []) ∧
    decode c [0x18#8, 0x02#8, 0x10#8] = .ok (.lbr 0x0210#16, []) ∧
    decode c [0x80#8, 0x35#8] = .ok (.adr 3#3 5#3, []) ∧ decode c [0x3D#8] = .ok (.setq 5#3, []) ∧
    decode c [0x43#8] = .ok (.push 3#3, []) ∧ decode c [0x4F#8] = .ok (.pop 7#3, []) ∧
    decode c [0xE1#8, 0xFB#8] = .ok (.ldi 1#3 0xFB#8, []) ∧
    decode c [0xED#8, 0x01#8, 0xFF#8] = .ok (.sti 5#3 0x01FF#16, []) ∧
    decode c [0x1E#8] = .ok (.unused 0x1E#8, [])

/-- R79, R80, R83: the given bytes' descriptors, in every configuration. The lengths of NOP, HALT and LBR are the spec's
D17; the cost of each family member is its inference from the mnemonic's. -/
def Obligations.GivenSlots : Prop :=
  ∀ (c : Config) (k : Sel),
    c.lookup 0x00#8 = .ok ⟨.nop, .imp, 0x00#8, 1, 1⟩ ∧ c.lookup 0x01#8 = .ok ⟨.halt, .imp, 0x01#8, 1, 1⟩ ∧
    c.lookup 0x18#8 = .ok ⟨.lbr, .abs, 0x18#8, 3, c.cycAt 0x18#8⟩ ∧ c.lookup 0x80#8 = .ok ⟨.adr, .imm, 0x80#8, 2, 3⟩ ∧
    c.lookup (0b00111#5 ++ k) = .ok ⟨.setq, .imp, 0b00111#5 ++ k, 1, 1⟩ ∧
    c.lookup (0b01000#5 ++ k) = .ok ⟨.push, .imp, 0b01000#5 ++ k, 1, c.cycAt (0b01000#5 ++ k)⟩ ∧
    c.lookup (0b01001#5 ++ k) = .ok ⟨.pop, .imp, 0b01001#5 ++ k, 1, c.cycAt (0b01001#5 ++ k)⟩ ∧
    c.lookup (0b11100#5 ++ k) = .ok ⟨.ldi, .imm, 0b11100#5 ++ k, 2, 2⟩ ∧
    c.lookup (0b11101#5 ++ k) = .ok ⟨.sti, .abs, 0b11101#5 ++ k, 3, 4⟩ ∧
    ∀ ob ∈ [0x06#8, 0x07#8, 0x1C#8, 0x1D#8, 0x1E#8], c.lookup ob = .ok ⟨.unused, .imp, ob, 1, 1⟩

/-- R81, R83, R84: under an admitted map every assigned byte has its instruction's descriptor, with the length of R81's
table and the cycles `CYC(b)`. The lengths are the spec's D17. -/
def Obligations.AssignedSlots : Prop :=
  ∀ (c : Config) (m : OpcodeMap) (k : Sel), c.opcodeMap = some m → c.admitted = true →
    (∀ row ∈ [(m.inc, Mnemonic.inc), (m.dec, .dec), (m.shl, .shl), (m.shlc, .shlc), (m.shr, .shr), (m.shrc, .shrc),
        (m.resetq, .resetq)],
      c.lookup (row.1 ++ k) = .ok ⟨row.2, .imp, row.1 ++ k, 1, c.cycAt (row.1 ++ k)⟩) ∧
    (∀ row ∈ [(m.adi, Mnemonic.adi), (m.subi, .subi), (m.ani, .ani), (m.ori, .ori), (m.xri, .xri)],
      c.lookup (row.1 ++ k) = .ok ⟨row.2, .imm, row.1 ++ k, 2, c.cycAt (row.1 ++ k)⟩) ∧
    (∀ row ∈ [(m.adm, Mnemonic.adm), (m.subm, .subm), (m.ldm, .ldm), (m.lbrq, .lbrq)],
      c.lookup (row.1 ++ k) = .ok ⟨row.2, .abs, row.1 ++ k, 3, c.cycAt (row.1 ++ k)⟩) ∧
    (∀ row ∈ [(m.sub, Mnemonic.sub), (m.andR, .andR), (m.orR, .orR), (m.xorR, .xorR), (m.cmp, .cmp), (m.ex, .ex),
        (m.spsr, .spsr), (m.cpsr, .cpsr)],
      c.lookup row.1 = .ok ⟨row.2, .imm, row.1, 2, c.cycAt row.1⟩) ∧
    (∀ row ∈ [(m.lbrc, Mnemonic.lbrc), (m.lbrz, .lbrz), (m.call, .call)],
      c.lookup row.1 = .ok ⟨row.2, .abs, row.1, 3, c.cycAt row.1⟩) ∧
    c.lookup m.ret = .ok ⟨.ret, .imp, m.ret, 1, c.cycAt m.ret⟩

/-- R78: in a table that fixes every slot, `Lookup` answers, for every byte, a descriptor whose opcode is that byte and
whose length is 1, 2 or 3; a slot no instruction is bound to has a handler that does nothing, with the slot's own length
and cycles, and every other slot is bound to an instruction. -/
def Obligations.EverySlotHasADescriptor : Prop :=
  ∀ (c : Config) (ob : Byte), c.complete = true →
    ∃ d, c.lookup ob = .ok d ∧ d.opcode = ob ∧ (d.length = 1 ∨ d.length = 2 ∨ d.length = 3) ∧
      (c.isUnused ob = false → d.name ≠ .unused) ∧
      (c.isUnused ob = true → d.name = .unused ∧ (∀ (op : List Byte) (s : State), exec (d.name.instr ob op) s = .next s) ∧
        ∃ u, c.unusedSlot ob = some u ∧ d.length = u.mode.length ∧ d.cycles = u.cycles)

/-- R74: the operand byte's X is (v / 16) mod 8, its Y is v mod 8, whatever bits 7 and 3 hold; the seven DUAL instructions
are two bytes long. -/
def Obligations.DualOperandFields : Prop :=
  ∀ (ob v : Byte) (vs : List Byte), ∃ x y : Sel, x.toNat = v.toNat / 16 % 8 ∧ y.toNat = v.toNat % 8 ∧
    Mnemonic.adr.instr ob (v :: vs) = .adr x y ∧ Mnemonic.sub.instr ob (v :: vs) = .sub x y ∧
    Mnemonic.ex.instr ob (v :: vs) = .ex x y ∧ Mnemonic.cmp.instr ob (v :: vs) = .cmp x y ∧
    Mnemonic.andR.instr ob (v :: vs) = .andR x y ∧ Mnemonic.orR.instr ob (v :: vs) = .orR x y ∧
    Mnemonic.xorR.instr ob (v :: vs) = .xorR x y ∧
    ∀ mn ∈ [Mnemonic.adr, .sub, .ex, .cmp, .andR, .orR, .xorR], mn.mode.length = 2

/-- R77: the absolute address is op[0]·256 + op[1], for each of the nine instructions that carry one, and is used as it
is. -/
def Obligations.AbsoluteAddressHighByteFirst : Prop :=
  ∀ (ob hi lo : Byte) (vs : List Byte), ∃ (r : Sel) (a : Addr),
    r.toNat = ob.toNat % 8 ∧ a.toNat = hi.toNat * 256 + lo.toNat ∧
    Mnemonic.adm.instr ob (hi :: lo :: vs) = .adm r a ∧ Mnemonic.subm.instr ob (hi :: lo :: vs) = .subm r a ∧
    Mnemonic.ldm.instr ob (hi :: lo :: vs) = .ldm r a ∧ Mnemonic.sti.instr ob (hi :: lo :: vs) = .sti r a ∧
    Mnemonic.lbr.instr ob (hi :: lo :: vs) = .lbr a ∧ Mnemonic.lbrc.instr ob (hi :: lo :: vs) = .lbrc a ∧
    Mnemonic.lbrz.instr ob (hi :: lo :: vs) = .lbrz a ∧ Mnemonic.lbrq.instr ob (hi :: lo :: vs) = .lbrq r a ∧
    Mnemonic.call.instr ob (hi :: lo :: vs) = .call a

/-- Decoding an encoded instruction gives it back, for every well-formed instruction of every configuration whose opcode
map R84 admits, with every operand at every value. -/
def Obligations.DecodeOfEncode : Prop :=
  ∀ (c : Config) (i : Instr) (rest : List Byte), c.admitted = true → i.wellFormed c = true →
    ∃ bs, encode c i = some bs ∧ decode c (bs ++ rest) = .ok (i, rest)

/-- What decodes is well-formed, and encoding it gives the bytes back: the opcode byte and the length always, every byte
but for the ignored bits of a DUAL operand, which come back 0 (R74), and the skipped bytes of an unused slot (R106). That the
encoder writes 0 there is the model's (log entry 26). -/
def Obligations.EncodeOfDecode : Prop :=
  ∀ (c : Config) (i : Instr) (bytes rest : List Byte), c.admitted = true → decode c bytes = .ok (i, rest) →
    i.wellFormed c = true ∧ ∃ bs, encode c i = some bs ∧ bs.head? = bytes.head? ∧
      bs.length + rest.length = bytes.length ∧ bytes.drop bs.length = rest ∧
      (i.mnemonic ∉ [.adr, .sub, .andR, .orR, .xorR, .cmp, .ex, .unused] → bs ++ rest = bytes) ∧
      (i.mnemonic ∈ [.adr, .sub, .andR, .orR, .xorR, .cmp, .ex] →
        ∃ ob v, bytes = ob :: v :: rest ∧ bs = [ob, v &&& 0x77#8])

/-- R84 (d): no family of an admitted map takes one of the eight blocks that hold a given byte. -/
def Obligations.FamiliesAvoidGivenBlocks : Prop :=
  ∀ (m : OpcodeMap) (code : BitVec 5), m.admitted = true → .family code ∈ m.patterns →
    code ∉ [0x00#5, 0x03#5, 0x07#5, 0x08#5, 0x09#5, 0x10#5, 0x1C#5, 0x1D#5]

/-- R84 (e): under every admitted map exactly 72 bytes are unused, and those are the bytes `identify` finds unused. -/
def Obligations.SeventyTwoUnusedSlots : Prop :=
  ∀ (c : Config) (m : OpcodeMap), c.opcodeMap = some m → c.admitted = true →
    (∀ ob : Byte, c.identify ob = .ok .unused ↔ c.isUnused ob = true) ∧
    ((List.range 256).filter fun n => c.isUnused (BitVec.ofNat 8 n)).length = 72

/-! ## The Step -/

/-- R101: where the bytes at PC decode to i, the Step is i's handler run on the state advanced past it, then the slot's
cycles charged. -/
def Obligations.StepRunsTheDecodedInstruction : Prop :=
  ∀ (s t : State) (i : Instr) (rest : List Byte) (d : Descriptor),
    decode s.config (s.mem.readBytes s.pc 3) = .ok (i, rest) → s.config.lookup (s.read s.pc) = .ok d → s.Fits d.length →
    d.length + rest.length = 3 ∧
    (exec i { s with lastPc := s.pc, pc := s.pc + BitVec.ofNat 16 d.length } = .next t →
      step s = .next { t with cycles := t.cycles + d.cycles })

/-- R102, R104, R202, R204: a Step is refused exactly when the configuration does not fix the byte at PC, and faults
exactly when the byte is fixed and its bytes or the advanced PC pass $FFFF under `ADDR_WRAP = Fault` (the spec's D2, D3,
D8); the one answer excludes the other. -/
def Obligations.StepVerdicts : Prop :=
  ∀ s : State,
    (∀ b, step s = .refused (.unknownOpcode b) ↔ s.config.lookup (s.read s.pc) = .error (.unknownOpcode b)) ∧
    (∀ b, step s = .refused (.unusedLength b) ↔ s.config.lookup (s.read s.pc) = .error (.unusedLength b)) ∧
    (step s = .fault .addressOverflow ↔ ∃ d, s.config.lookup (s.read s.pc) = .ok d ∧ 65536 ≤ s.pc.toNat + d.length ∧
      s.config.addrWrap = .fault) ∧
    ((∃ t, step s = .next t) ↔ ∃ d, s.config.lookup (s.read s.pc) = .ok d ∧
      (s.pc.toNat + d.length < 65536 ∨ s.config.addrWrap = .wrap))

/-- R85, R102: with no opcode map, a byte the source does not give is refused by name, and a complete configuration
refuses no byte at all: a Step of it that fits is taken. -/
def Obligations.RefusalsComeFromMissingConfiguration : Prop :=
  (∀ s : State, s.config.opcodeMap = none → findRow (s.read s.pc) givenRows = none →
    step s = .refused (.unknownOpcode (s.read s.pc))) ∧
  (∀ (s : State) (r : Refusal), s.config.complete = true → step s ≠ .refused r) ∧
  ∀ s : State, s.config.complete = true → s.pc.toNat < 65533 ∨ s.config.addrWrap = .wrap → ∃ t, step s = .next t

/-- R110: PC and Cycles of every Step, with the conditions and targets of R170–R173, R178 and R179. That LBRC, LBRZ and LBRQ
are three bytes long is the spec's D17 (log entry 15). -/
def Obligations.PcAndCyclesOfEveryStep : Prop :=
  ∀ (s t : State) (d : Descriptor) (a : Addr), step s = .next t → s.config.lookup (s.read s.pc) = .ok d →
    a.toNat = (s.byteAt 1).toNat * 256 + (s.byteAt 2).toNat →
    Charged d.cycles s t ∧
    (d.name ∉ [.halt, .lbr, .lbrc, .lbrz, .lbrq, .call, .ret] → t.pc = s.pc + BitVec.ofNat 16 d.length) ∧
    (d.name = .halt → t.pc = s.pc) ∧
    (d.name = .lbr ∨ d.name = .call → t.pc = a) ∧
    (d.name = .lbrc → t.pc = if s.flags.c then a else s.pc + 3#16) ∧
    (d.name = .lbrz → t.pc = if s.flags.z then a else s.pc + 3#16) ∧
    (d.name = .lbrq → t.pc = if s.q.getLsbD ((s.byteAt 0).toNat % 8) then a else s.pc + 3#16) ∧
    (d.name = .ret → t.pc.toNat =
      (s.read (stackAddr (s.sp + 2#8))).toNat * 256 + (s.read (stackAddr (s.sp + 1#8))).toNat)

/-- R109, R226: from the halted state every Step leaves everything but Cycles as it is, LastPC equal to PC, and adds 1 to
Cycles; so n+1 Steps add n+1, the core never leaves the state by itself, and the run has ended. A run ends only by
executing a HALT: before its first Step none has ended, and where one has, LastPC is PC. That this is the end of a run is the
spec's D16 (log entry 22). -/
def Obligations.HaltedStateStays : Prop :=
  (∀ (s : State) (n : Nat), s.Halted →
    Runs (n + 1) s { s with lastPc := s.pc, cycles := s.cycles + (n + 1) } ∧
    ∀ t, Runs (n + 1) s t → s.Ended (n + 1) t ∧ t = { s with lastPc := s.pc, cycles := s.cycles + (n + 1) }) ∧
  (∀ s t : State, ¬ s.Ended 0 t) ∧
  ∀ (s t : State) (n : Nat), s.Ended n t → Runs n s t ∧ t.Halted ∧ t.lastPc = t.pc

/-- R24, R33: SP moves only by PUSH, POP, CALL and RET, by one or two modulo 256; Q is written only by SETQ and RESETQ. -/
def Obligations.WritersOfSpAndQ : Prop :=
  ∀ (s t : State) (d : Descriptor), step s = .next t → s.config.lookup (s.read s.pc) = .ok d →
    (d.name ∉ [.push, .pop, .call, .ret] → t.sp = s.sp) ∧
    (d.name = .push → t.sp.toNat = (s.sp.toNat + 255) % 256) ∧ (d.name = .pop → t.sp.toNat = (s.sp.toNat + 1) % 256) ∧
    (d.name = .call → t.sp.toNat = (s.sp.toNat + 254) % 256) ∧ (d.name = .ret → t.sp.toNat = (s.sp.toNat + 2) % 256) ∧
    (d.name ∉ [.setq, .resetq] → t.q = s.q)

/-- R29, R30: which instructions may change Carry, Zero and Sign. That the control, stack and I/O instructions write none is
the spec's D21. -/
def Obligations.WritersOfFlags : Prop :=
  ∀ (s t : State) (d : Descriptor), step s = .next t → s.config.lookup (s.read s.pc) = .ok d →
    (d.name ∉ [.sub, .subi, .subm, .shl, .shr, .cmp, .spsr, .cpsr] → t.flags.c = s.flags.c) ∧
    (d.name ∉ [.adr, .adi, .adm, .sub, .subi, .subm, .andR, .ani, .orR, .ori, .xorR, .xri, .inc, .dec, .shl, .shlc,
        .shr, .shrc, .pop, .spsr, .cpsr] → t.flags.z = s.flags.z ∧ t.flags.s = s.flags.s)

/-- R21, R59: only STI, PUSH and CALL write memory; only the instructions of R21's last column write general registers,
and each but EX writes one. -/
def Obligations.WritersOfMemoryAndRegisters : Prop :=
  ∀ (s t : State) (d : Descriptor), step s = .next t → s.config.lookup (s.read s.pc) = .ok d →
    (d.name ∉ [.sti, .push, .call] → SameMemory s t) ∧
    (d.name ∈ [.nop, .halt, .cmp, .sti, .lbr, .lbrc, .lbrz, .lbrq, .setq, .resetq, .push, .call, .ret, .spsr, .cpsr,
        .unused] → SameRegsBut [] s t) ∧
    (d.name ≠ .ex → ∃ r : Sel, SameRegsBut [r] s t)

/-- R31, R32: the flags I, D, B and V are written only by SPSR and CPSR and read by nothing. Two states that differ in them
only give Steps that differ in them only. -/
def Obligations.StorageFlagsHaveNoEffect : Prop :=
  (∀ (s t : State) (d : Descriptor), step s = .next t → s.config.lookup (s.read s.pc) = .ok d → d.name ∉ [.spsr, .cpsr] →
    t.flags.v = s.flags.v ∧ t.flags.i = s.flags.i ∧ t.flags.d = s.flags.d ∧ t.flags.b = s.flags.b) ∧
  ∀ (s : State) (i d b v : Bool),
    (∀ t, step s = .next t → ∃ i' d' b' v', step (s.withStorageFlags i d b v) = .next (t.withStorageFlags i' d' b' v')) ∧
    (∀ r, step s = .fault r → step (s.withStorageFlags i d b v) = .fault r) ∧
    ∀ r, step s = .refused r → step (s.withStorageFlags i d b v) = .refused r

/-- R34, R35, R229: no instruction reads Cycles, and LastPC is read only by HALT, whose own Step has just written it. Two
states that differ in them only give Steps that differ in Cycles only, by what was charged. -/
def Obligations.CountersHaveNoEffect : Prop :=
  ∀ (s : State) (l : Addr) (n : Nat),
    (∀ t, step s = .next t → s.cycles ≤ t.cycles ∧
      step (s.withCounters l n) = .next (t.withCounters t.lastPc (n + (t.cycles - s.cycles)))) ∧
    (∀ r, step s = .fault r → step (s.withCounters l n) = .fault r) ∧
    ∀ r, step s = .refused r → step (s.withCounters l n) = .refused r

/-! ## Whole Steps of instructions whose bytes the source gives -/

/-- R120: a Step at an ADR. -/
def Obligations.AdrStep : Prop :=
  ∀ (s : State) (x y : Sel), s.byteAt 0 = 0x80#8 → s.Fits 2 → x.toNat = (s.byteAt 1).toNat / 16 % 8 →
    y.toNat = (s.byteAt 1).toNat % 8 →
    ∃ t, step s = .next t ∧ (t.reg x).toNat = ((s.reg x).toNat + (s.reg y).toNat) % 256 ∧
      NZOf (t.reg x).toNat s.flags t.flags ∧ SameRegsBut [x] s t ∧ SameMemory s t ∧ t.sp = s.sp ∧ t.q = s.q ∧
      t.pc = s.pc + 2#16 ∧ Charged 3 s t

/-- R160: a Step at an LDI. -/
def Obligations.LdiStep : Prop :=
  ∀ (s : State) (r : Sel), (s.byteAt 0).toNat = 0xE0 + r.toNat → s.Fits 2 →
    ∃ t, step s = .next t ∧ t.reg r = s.byteAt 1 ∧ t.flags = s.flags ∧ SameRegsBut [r] s t ∧ SameMemory s t ∧
      t.sp = s.sp ∧ t.q = s.q ∧ t.pc = s.pc + 2#16 ∧ Charged 2 s t

/-- R162, R66: a Step at an STI. The store is seen by the next fetch, wherever it lies, and a store into the
instruction's own bytes does not change the Step that performs it. -/
def Obligations.StiStep : Prop :=
  ∀ (s : State) (r : Sel) (a : Addr), (s.byteAt 0).toNat = 0xE8 + r.toNat → s.Fits 3 →
    a.toNat = (s.byteAt 1).toNat * 256 + (s.byteAt 2).toNat →
    ∃ t, step s = .next t ∧ t.read a = s.reg r ∧ SameMemoryBut [a] s t ∧ SameRegsBut [] s t ∧ t.flags = s.flags ∧
      t.sp = s.sp ∧ t.q = s.q ∧ t.pc = s.pc + 3#16 ∧ Charged 4 s t ∧
      t.opcode = if a = s.pc + 3#16 then s.reg r else s.byteAt 3

/-- R177: a Step at a POP. -/
def Obligations.PopStep : Prop :=
  ∀ (s : State) (r : Sel), (s.byteAt 0).toNat = 0x48 + r.toNat → s.Fits 1 →
    ∃ t, step s = .next t ∧ t.sp.toNat = (s.sp.toNat + 1) % 256 ∧ t.reg r = s.read (stackAddr t.sp) ∧
      NZOf (t.reg r).toNat s.flags t.flags ∧ SameRegsBut [r] s t ∧ SameMemory s t ∧ t.q = s.q ∧
      t.pc = s.pc + 1#16 ∧ Charged (s.config.cycAt (s.byteAt 0)) s t

/-- R106: a Step at an unused slot does nothing but advance PC by the slot's length and charge its cycles; a slot whose
length is not configured is refused (the latter the spec's D3). -/
def Obligations.UnusedSlotStep : Prop :=
  (∀ s : State, s.byteAt 0 ∈ [0x06#8, 0x07#8, 0x1C#8, 0x1D#8, 0x1E#8] → s.Fits 1 →
    step s = .next { s with pc := s.pc + 1#16, lastPc := s.pc, cycles := s.cycles + 1 }) ∧
  (∀ (s : State) (u : UnusedSlot), s.config.isUnused (s.byteAt 0) = true →
    s.byteAt 0 ∉ [0x06#8, 0x07#8, 0x1C#8, 0x1D#8, 0x1E#8] →
    s.config.unusedAt (s.byteAt 0) = some u → s.Fits u.mode.length →
    step s = .next { s with pc := s.pc + BitVec.ofNat 16 u.mode.length, lastPc := s.pc, cycles := s.cycles + u.cycles }) ∧
  ∀ s : State, s.config.isUnused (s.byteAt 0) = true → s.byteAt 0 ∉ [0x06#8, 0x07#8, 0x1C#8, 0x1D#8, 0x1E#8] →
    s.config.unusedAt (s.byteAt 0) = none → step s = .refused (.unusedLength (s.byteAt 0))

/-! ## The handlers: results, completion and frames -/

/-- R106–R108: NOP and an unused slot change nothing beyond the generic Step; HALT sets PC to LastPC and changes nothing
else. -/
def Obligations.NoOpAndHaltResults : Prop :=
  ∀ s : State, exec .nop s = .next s ∧ (∀ ob : Byte, exec (.unused ob) s = .next s) ∧
    exec .halt s = .next { s with pc := s.lastPc }

/-- R120–R122, R140: addition modulo 256; Z and S of the result; C, V and all else unchanged. -/
def Obligations.AdditionResults : Prop :=
  ∀ s : State,
    (∀ x y : Sel, ∃ t, exec (.adr x y) s = .next t ∧ (t.reg x).toNat = ((s.reg x).toNat + (s.reg y).toNat) % 256 ∧
      NZOf (t.reg x).toNat s.flags t.flags ∧ RegisterFrame [x] s t) ∧
    (∀ (r : Sel) (imm : Byte), ∃ t, exec (.adi r imm) s = .next t ∧
      (t.reg r).toNat = ((s.reg r).toNat + imm.toNat) % 256 ∧
      NZOf (t.reg r).toNat s.flags t.flags ∧ RegisterFrame [r] s t) ∧
    ∀ (r : Sel) (a : Addr), ∃ t, exec (.adm r a) s = .next t ∧
      (t.reg r).toNat = ((s.reg r).toNat + (s.read a).toNat) % 256 ∧
      NZOf (t.reg r).toNat s.flags t.flags ∧ RegisterFrame [r] s t

/-- R123–R125, R140: subtraction modulo 256; C when no borrow occurs, Z and S of the result; all else unchanged. That SUB's
minuend and destination are R[X] is the spec's D6, that the comparison is unsigned its D22. -/
def Obligations.SubtractionResults : Prop :=
  ∀ s : State,
    (∀ x y : Sel, ∃ t, exec (.sub x y) s = .next t ∧
      ((t.reg x).toNat : Int) = ((s.reg x).toNat - (s.reg y).toNat : Int) % 256 ∧
      NZOf (t.reg x).toNat { s.flags with c := decide ((s.reg y).toNat ≤ (s.reg x).toNat) } t.flags ∧
      RegisterFrame [x] s t) ∧
    (∀ (r : Sel) (imm : Byte), ∃ t, exec (.subi r imm) s = .next t ∧
      ((t.reg r).toNat : Int) = ((s.reg r).toNat - imm.toNat : Int) % 256 ∧
      NZOf (t.reg r).toNat { s.flags with c := decide (imm.toNat ≤ (s.reg r).toNat) } t.flags ∧
      RegisterFrame [r] s t) ∧
    ∀ (r : Sel) (a : Addr), ∃ t, exec (.subm r a) s = .next t ∧
      ((t.reg r).toNat : Int) = ((s.reg r).toNat - (s.read a).toNat : Int) % 256 ∧
      NZOf (t.reg r).toNat { s.flags with c := decide ((s.read a).toNat ≤ (s.reg r).toNat) } t.flags ∧
      RegisterFrame [r] s t

/-- R126, R128, R130: the register logic instructions bit by bit; Z and S of the result; all else unchanged. That OR and XOR
write R[X] is the spec's D6. -/
def Obligations.RegisterLogicResults : Prop :=
  ∀ (s : State) (x y : Sel),
    (∃ t, exec (.andR x y) s = .next t ∧
      (∀ k, (t.reg x).getLsbD k = ((s.reg x).getLsbD k && (s.reg y).getLsbD k)) ∧
      NZOf (t.reg x).toNat s.flags t.flags ∧ RegisterFrame [x] s t) ∧
    (∃ t, exec (.orR x y) s = .next t ∧
      (∀ k, (t.reg x).getLsbD k = ((s.reg x).getLsbD k || (s.reg y).getLsbD k)) ∧
      NZOf (t.reg x).toNat s.flags t.flags ∧ RegisterFrame [x] s t) ∧
    ∃ t, exec (.xorR x y) s = .next t ∧
      (∀ k, (t.reg x).getLsbD k = ((s.reg x).getLsbD k ^^ (s.reg y).getLsbD k)) ∧
      NZOf (t.reg x).toNat s.flags t.flags ∧ RegisterFrame [x] s t

/-- R127, R129, R131: the immediate logic instructions bit by bit; Z and S of the result; all else unchanged. -/
def Obligations.ImmediateLogicResults : Prop :=
  ∀ (s : State) (r : Sel) (imm : Byte),
    (∃ t, exec (.ani r imm) s = .next t ∧
      (∀ k, (t.reg r).getLsbD k = ((s.reg r).getLsbD k && imm.getLsbD k)) ∧
      NZOf (t.reg r).toNat s.flags t.flags ∧ RegisterFrame [r] s t) ∧
    (∃ t, exec (.ori r imm) s = .next t ∧
      (∀ k, (t.reg r).getLsbD k = ((s.reg r).getLsbD k || imm.getLsbD k)) ∧
      NZOf (t.reg r).toNat s.flags t.flags ∧ RegisterFrame [r] s t) ∧
    ∃ t, exec (.xri r imm) s = .next t ∧
      (∀ k, (t.reg r).getLsbD k = ((s.reg r).getLsbD k ^^ imm.getLsbD k)) ∧
      NZOf (t.reg r).toNat s.flags t.flags ∧ RegisterFrame [r] s t

/-- R132, R133: INC and DEC modulo 256; Z and S of the result; C, V and all else unchanged. -/
def Obligations.IncrementAndDecrementResults : Prop :=
  ∀ (s : State) (r : Sel),
    (∃ t, exec (.inc r) s = .next t ∧ (t.reg r).toNat = ((s.reg r).toNat + 1) % 256 ∧
      NZOf (t.reg r).toNat s.flags t.flags ∧ RegisterFrame [r] s t) ∧
    ∃ t, exec (.dec r) s = .next t ∧ (t.reg r).toNat = ((s.reg r).toNat + 255) % 256 ∧
      NZOf (t.reg r).toNat s.flags t.flags ∧ RegisterFrame [r] s t

/-- R134, R135, R141: SHL doubles modulo 256 and takes the old bit 7 into C; SHLC doubles, adds C and keeps C; Z and S of
the result; all else unchanged. -/
def Obligations.LeftShiftResults : Prop :=
  ∀ (s : State) (r : Sel),
    (∃ t, exec (.shl r) s = .next t ∧ (t.reg r).toNat = (s.reg r).toNat * 2 % 256 ∧
      NZOf (t.reg r).toNat { s.flags with c := decide (128 ≤ (s.reg r).toNat) } t.flags ∧ RegisterFrame [r] s t) ∧
    ∃ t, exec (.shlc r) s = .next t ∧ (t.reg r).toNat = ((s.reg r).toNat * 2 + s.flags.c.toNat) % 256 ∧
      NZOf (t.reg r).toNat s.flags t.flags ∧ RegisterFrame [r] s t

/-- R136, R137, R141: SHR halves and takes the old bit 0 into C; SHRC halves, puts C into bit 7 and keeps C; Z and S of the
result; all else unchanged. The zero fill is the spec's D7. -/
def Obligations.RightShiftResults : Prop :=
  ∀ (s : State) (r : Sel),
    (∃ t, exec (.shr r) s = .next t ∧ (t.reg r).toNat = (s.reg r).toNat / 2 ∧
      NZOf (t.reg r).toNat { s.flags with c := decide ((s.reg r).toNat % 2 = 1) } t.flags ∧ RegisterFrame [r] s t) ∧
    ∃ t, exec (.shrc r) s = .next t ∧ (t.reg r).toNat = (s.reg r).toNat / 2 + 128 * s.flags.c.toNat ∧
      NZOf (t.reg r).toNat s.flags t.flags ∧ RegisterFrame [r] s t

/-- R138: CMP sets C on equal registers; on unequal ones it clears or keeps C, as `CMP_UNEQUAL` says (the spec's D5); no
other flag, no register and nothing else changes. -/
def Obligations.CompareResult : Prop :=
  ∀ (s : State) (x y : Sel), ∃ t, exec (.cmp x y) s = .next t ∧
    (s.reg x = s.reg y → t.flags.c = true) ∧
    (s.reg x ≠ s.reg y → s.config.cmpUnequal = .clear → t.flags.c = false) ∧
    (s.reg x ≠ s.reg y → s.config.cmpUnequal = .keep → t.flags.c = s.flags.c) ∧
    t.flags = { s.flags with c := t.flags.c } ∧ RegisterFrame [] s t

/-- R139: EX swaps two registers; with X = Y nothing changes; no flag and nothing else changes. -/
def Obligations.ExchangeResult : Prop :=
  ∀ (s : State) (x y : Sel), ∃ t, exec (.ex x y) s = .next t ∧ t.reg x = s.reg y ∧ t.reg y = s.reg x ∧
    (x = y → t = s) ∧ t.flags = s.flags ∧ RegisterFrame [x, y] s t

/-- R160–R162: LDI and LDM write one register; LDM reads one byte of memory; STI stores a register at the absolute
address, one byte. No flag and nothing else changes. -/
def Obligations.LoadAndStoreResults : Prop :=
  ∀ (s : State) (r : Sel),
    (∀ imm : Byte, ∃ t, exec (.ldi r imm) s = .next t ∧ t.reg r = imm ∧ t.flags = s.flags ∧ RegisterFrame [r] s t) ∧
    (∀ a : Addr, ∃ t, exec (.ldm r a) s = .next t ∧ t.reg r = s.read a ∧ t.flags = s.flags ∧ RegisterFrame [r] s t) ∧
    ∀ a : Addr, ∃ t, exec (.sti r a) s = .next t ∧ t.read a = s.reg r ∧ t.flags = s.flags ∧ t.sp = s.sp ∧
      t.pc = s.pc ∧ StackFrame [] [a] s t

/-- R170–R173, R184: the long branches set PC to their target, the conditional ones only if C, Z or line q is set; PC is
otherwise already past the instruction. No flag changes (the spec's D21), nor anything else. -/
def Obligations.BranchResults : Prop :=
  ∀ (s : State) (a : Addr),
    exec (.lbr a) s = .next { s with pc := a } ∧
    exec (.lbrc a) s = .next { s with pc := if s.flags.c then a else s.pc } ∧
    exec (.lbrz a) s = .next { s with pc := if s.flags.z then a else s.pc } ∧
    ∀ q : Sel, exec (.lbrq q a) s = .next { s with pc := if s.q.toNat / 2 ^ q.toNat % 2 = 1 then a else s.pc }

/-- R174, R175: SETQ sets one line of Q and RESETQ clears one, the other lines kept; nothing else changes (for flags the
spec's D21). -/
def Obligations.LineResults : Prop :=
  ∀ (s : State) (q : Sel),
    (∃ t, exec (.setq q) s = .next t ∧
      (∀ k : Sel, t.q.getLsbD k.toNat = if k = q then true else s.q.getLsbD k.toNat) ∧ t = { s with q := t.q }) ∧
    ∃ t, exec (.resetq q) s = .next t ∧
      (∀ k : Sel, t.q.getLsbD k.toNat = if k = q then false else s.q.getLsbD k.toNat) ∧ t = { s with q := t.q }

/-- R176: PUSH stores the register at the stack address of SP, then decrements SP modulo 256; nothing else changes (for
flags the spec's D21). -/
def Obligations.PushResult : Prop :=
  ∀ (s : State) (r : Sel), ∃ t, exec (.push r) s = .next t ∧ t.read (stackAddr s.sp) = s.reg r ∧
    t.sp.toNat = (s.sp.toNat + 255) % 256 ∧ t.flags = s.flags ∧ t.pc = s.pc ∧ StackFrame [] [stackAddr s.sp] s t

/-- R177: POP increments SP modulo 256 and loads the register from the stack address of the new SP; Z and S of the byte;
nothing else changes. -/
def Obligations.PopResult : Prop :=
  ∀ (s : State) (r : Sel), ∃ t, exec (.pop r) s = .next t ∧ t.sp.toNat = (s.sp.toNat + 1) % 256 ∧
    t.reg r = s.read (stackAddr t.sp) ∧ NZOf (t.reg r).toNat s.flags t.flags ∧ t.pc = s.pc ∧ StackFrame [r] [] s t

/-- R178, R56: CALL pushes the return address, its high byte at the higher stack address, and jumps; nothing else changes
(for flags the spec's D21). -/
def Obligations.CallResult : Prop :=
  ∀ (s : State) (a : Addr), ∃ t, exec (.call a) s = .next t ∧ t.pc = a ∧
    (t.read (stackAddr s.sp)).toNat = s.pc.toNat / 256 ∧ (t.read (stackAddr (s.sp - 1#8))).toNat = s.pc.toNat % 256 ∧
    t.sp.toNat = (s.sp.toNat + 254) % 256 ∧ t.flags = s.flags ∧
    StackFrame [] [stackAddr s.sp, stackAddr (s.sp - 1#8)] s t

/-- R179: RET pops the low byte, then the high byte, of PC; nothing else changes (for flags the spec's D21). -/
def Obligations.ReturnResult : Prop :=
  ∀ s : State, ∃ t, exec .ret s = .next t ∧
    t.pc.toNat = (s.read (stackAddr (s.sp + 2#8))).toNat * 256 + (s.read (stackAddr (s.sp + 1#8))).toNat ∧
    t.sp.toNat = (s.sp.toNat + 2) % 256 ∧ t.flags = s.flags ∧ StackFrame [] [] s t

/-- R180–R183: SPSR sets and CPSR clears the flags whose mask bit is 1; the others are kept, bit 5 changes nothing, and
nothing else changes. -/
def Obligations.StatusMaskResults : Prop :=
  ∀ (s : State) (mask : Byte),
    (exec (.spsr mask) s = .next { s with flags :=
      { c := mask.getLsbD 0 || s.flags.c, z := mask.getLsbD 1 || s.flags.z, i := mask.getLsbD 2 || s.flags.i,
        d := mask.getLsbD 3 || s.flags.d, b := mask.getLsbD 4 || s.flags.b, v := mask.getLsbD 6 || s.flags.v,
        s := mask.getLsbD 7 || s.flags.s } }) ∧
    (exec (.cpsr mask) s = .next { s with flags :=
      { c := !mask.getLsbD 0 && s.flags.c, z := !mask.getLsbD 1 && s.flags.z, i := !mask.getLsbD 2 && s.flags.i,
        d := !mask.getLsbD 3 && s.flags.d, b := !mask.getLsbD 4 && s.flags.b, v := !mask.getLsbD 6 && s.flags.v,
        s := !mask.getLsbD 7 && s.flags.s } }) ∧
    exec (.spsr mask) s = exec (.spsr (mask &&& 0xDF#8)) s ∧ exec (.cpsr mask) s = exec (.cpsr (mask &&& 0xDF#8)) s

/-! ## Round trips -/

/-- R185 (a): PUSH then POP, for every SP and every two registers. -/
def Obligations.PushThenPop : Prop :=
  ∀ (s : State) (r r' : Sel), ∃ t u, exec (.push r) s = .next t ∧ exec (.pop r') t = .next u ∧
    u.reg r' = s.reg r ∧ u.sp = s.sp ∧ u.read (stackAddr s.sp) = s.reg r ∧ SameRegsBut [r'] s u ∧
    SameMemoryBut [stackAddr s.sp] s u

/-- R185 (b): after CALL, from any state with the SP and the two stack bytes that CALL left, RET returns to the address
after the CALL and restores SP. That RET keeps the flags is the spec's D21 (R179, log entry 16). -/
def Obligations.CallThenReturn : Prop :=
  ∀ (s t u : State) (a : Addr), exec (.call a) s = .next t → u.sp = t.sp →
    u.read (stackAddr s.sp) = t.read (stackAddr s.sp) →
    u.read (stackAddr (s.sp - 1#8)) = t.read (stackAddr (s.sp - 1#8)) →
    ∃ w, exec .ret u = .next w ∧ w.pc = s.pc ∧ w.sp = s.sp ∧ w.flags = u.flags

/-- R135: SHL of the low byte, then SHLC of the high byte, shifts a 16-bit value left by one; C still holds the low byte's
old bit 7. -/
def Obligations.ShiftPairShiftsSixteenBits : Prop :=
  ∀ (s : State) (hi lo : Sel), hi ≠ lo → ∃ t u, exec (.shl lo) s = .next t ∧ exec (.shlc hi) t = .next u ∧
    (u.reg hi).toNat * 256 + (u.reg lo).toNat = ((s.reg hi).toNat * 256 + (s.reg lo).toNat) * 2 % 65536 ∧
    u.flags.c = decide (128 ≤ (s.reg lo).toNat)

/-- R183, R138, R171: `CPSR #$01` before a CMP makes the following LBRC independent of `CMP_UNEQUAL`: it branches exactly
if the registers are equal. -/
def Obligations.ClearedCarryMakesCompareDefinite : Prop :=
  ∀ (s : State) (x y : Sel) (a : Addr), ∃ t u w, exec (.cpsr 0x01#8) s = .next t ∧ exec (.cmp x y) t = .next u ∧
    exec (.lbrc a) u = .next w ∧ w.pc = if s.reg x = s.reg y then a else s.pc
end

