-- ==== Sys2Proof/Laws/Decode.lean ====
section
/-! SUPPORT. The laws of the dispatch table, the operand fields and the encoder (spec 30_encoding.md R70–R85). -/

namespace Sys2Proof

/-! ### Operand fields -/

@[simp] theorem dualX_dualByte : ∀ x y : Sel, dualX (dualByte x y) = x := by
  decide

@[simp] theorem dualY_dualByte : ∀ x y : Sel, dualY (dualByte x y) = y := by
  decide

/-- Bits 7 and 3 of a DUAL operand byte are ignored (R74). -/
theorem dual_ignores_bits (v : Byte) : dualX v = dualX (v &&& 0x77#8) ∧ dualY v = dualY (v &&& 0x77#8) := by
  revert v
  decide

@[simp] theorem selOf_family : ∀ (code : BitVec 5) (s : Sel), selOf (code ++ s) = s := by
  decide

@[simp] theorem familyOf_family : ∀ (code : BitVec 5) (s : Sel), (code ++ s).extractLsb' 3 5 = code := by
  decide

/-- A byte is its bits 7:3 followed by its selector. -/
theorem family_selOf : ∀ ob : Byte, ob.extractLsb' 3 5 ++ selOf ob = ob := by
  decide

@[simp] theorem hiByte_wordOf (hi lo : Byte) : hiByte (wordOf hi lo) = hi := BitVec.extractLsb'_append_eq_left

@[simp] theorem loByte_wordOf (hi lo : Byte) : loByte (wordOf hi lo) = lo := BitVec.extractLsb'_append_eq_right

@[simp] theorem wordOf_hiByte_loByte (a : Addr) : wordOf (hiByte a) (loByte a) = a := by
  apply BitVec.eq_of_getLsbD_eq
  intro k hk
  have hbit : (wordOf (hiByte a) (loByte a)).getLsbD k =
      if k < 8 then (loByte a).getLsbD k else (hiByte a).getLsbD (k - 8) := BitVec.getLsbD_append
  rw [hbit]
  by_cases h : k < 8
  · simp [h, loByte]
  · have hlt : k - 8 < 8 := by omega
    have hsum : 8 + (k - 8) = k := by omega
    simp [h, hiByte, hlt, hsum]

@[simp] theorem operand_zero (v : Byte) (vs : List Byte) : operand (v :: vs) 0 = v := rfl

@[simp] theorem absAddr_pair (hi lo : Byte) (vs : List Byte) : absAddr (hi :: lo :: vs) = wordOf hi lo := rfl

/-! ### Patterns and rows -/

@[simp] theorem Pattern.byte_family (s : Sel) (code : BitVec 5) : (Pattern.family code).byte s = code ++ s := rfl

@[simp] theorem Pattern.byte_single (s : Sel) (b : Byte) : (Pattern.single b).byte s = b := rfl

/-- The encoder's opcode byte is one of the pattern's. -/
theorem Pattern.hits_byte (p : Pattern) (s : Sel) : p.hits (p.byte s) = true := by
  cases p <;> simp [Pattern.hits]

/-- Two patterns that share a byte are not disjoint. -/
theorem Pattern.not_disjoint_of_hits {p q : Pattern} {ob : Byte} (hp : p.hits ob = true) (hq : q.hits ob = true) :
    p.disjoint q = false := by
  cases p <;> cases q <;> simp_all [Pattern.hits, Pattern.disjoint]

/-- In rows of disjoint patterns, a byte has the binding of the one row it belongs to. -/
theorem findRow_of_mem {rows : List (Pattern × Mnemonic)}
    (hd : (rows.map Prod.fst).Pairwise fun p q => p.disjoint q = true) {p : Pattern} {mn : Mnemonic} {ob : Byte}
    (hmem : (p, mn) ∈ rows) (hp : p.hits ob = true) : findRow ob rows = some mn := by
  induction rows with
  | nil => simp at hmem
  | cons row rows ih =>
    obtain ⟨q, k⟩ := row
    rw [List.map_cons, List.pairwise_cons] at hd
    by_cases hq : q.hits ob = true
    · rcases List.mem_cons.1 hmem with h | h
      · cases h
        simp [findRow, hq]
      · have := hd.1 p (List.mem_map.2 ⟨(p, mn), h, rfl⟩)
        rw [Pattern.not_disjoint_of_hits hq hp] at this
        exact absurd this (by decide)
    · rcases List.mem_cons.1 hmem with h | h
      · cases h
        exact absurd hp hq
      · simpa [findRow, hq] using ih hd.2 h

/-- A byte has no binding exactly when no row's pattern holds it. -/
theorem findRow_eq_none {rows : List (Pattern × Mnemonic)} {ob : Byte} :
    findRow ob rows = none ↔ ∀ p ∈ rows.map Prod.fst, p.hits ob = false := by
  induction rows with
  | nil => simp [findRow]
  | cons row rows ih =>
    obtain ⟨q, k⟩ := row
    by_cases hq : q.hits ob = true
    · simp [findRow, hq]
    · have hq' : q.hits ob = false := by simpa using hq
      rw [List.map_cons, List.forall_mem_cons, ← ih]
      simp [findRow, hq']

/-- A binding comes from a row that holds the byte. -/
theorem findRow_some {rows : List (Pattern × Mnemonic)} {ob : Byte} {mn : Mnemonic} (h : findRow ob rows = some mn) :
    ∃ p, (p, mn) ∈ rows ∧ p.hits ob = true := by
  induction rows with
  | nil => simp [findRow] at h
  | cons row rows ih =>
    obtain ⟨q, k⟩ := row
    by_cases hq : q.hits ob = true
    · rw [findRow, if_pos hq] at h
      cases h
      exact ⟨q, by simp, hq⟩
    · rw [findRow, if_neg hq] at h
      obtain ⟨p, hp, hh⟩ := ih h
      exact ⟨p, List.mem_cons_of_mem _ hp, hh⟩

@[simp] theorem givenRows_patterns : givenRows.map Prod.fst = givenPatterns := rfl

@[simp] theorem OpcodeMap.rows_patterns (m : OpcodeMap) : m.rows.map Prod.fst = m.patterns := rfl

theorem OpcodeMap.admitted_iff (m : OpcodeMap) :
    m.admitted = true ↔ (givenPatterns ++ m.patterns).Pairwise fun p q => p.disjoint q = true := by
  simp [OpcodeMap.admitted]

theorem OpcodeMap.patterns_pairwise {m : OpcodeMap} (h : m.admitted = true) :
    m.patterns.Pairwise fun p q => p.disjoint q = true :=
  (List.pairwise_append.1 (m.admitted_iff.1 h)).2.1

/-- A byte the map assigns is none of the given ones (R84 (c)). -/
theorem findRow_given_of_assigned {m : OpcodeMap} (h : m.admitted = true) {p : Pattern} {ob : Byte}
    (hp : p ∈ m.patterns) (hh : p.hits ob = true) : findRow ob givenRows = none := by
  rw [findRow_eq_none, givenRows_patterns]
  intro q hq
  by_contra hqh
  have := (List.pairwise_append.1 (m.admitted_iff.1 h)).2.2 q hq p hp
  rw [Pattern.not_disjoint_of_hits (by simpa using hqh) hh] at this
  exact absurd this (by decide)

/-! ### `identify` and `lookup` -/

/-- A given byte's meaning does not depend on the configuration. -/
theorem Config.identify_given {c : Config} {ob : Byte} {mn : Mnemonic} (h : findRow ob givenRows = some mn) :
    c.identify ob = .ok mn := by
  simp [Config.identify, h]

/-- A byte the map assigns has the map's meaning. -/
theorem Config.identify_assigned {c : Config} {m : OpcodeMap} (hm : c.opcodeMap = some m) (hc : c.admitted = true)
    {p : Pattern} {mn : Mnemonic} {ob : Byte} (hrow : (p, mn) ∈ m.rows) (hh : p.hits ob = true) :
    c.identify ob = .ok mn := by
  have ha : m.admitted = true := by simpa [Config.admitted, hm] using hc
  have hp : p ∈ m.patterns := by
    rw [← OpcodeMap.rows_patterns]
    exact List.mem_map.2 ⟨_, hrow, rfl⟩
  have hf := findRow_of_mem (rows := m.rows) (by simpa using OpcodeMap.patterns_pairwise ha) hrow hh
  simp [Config.identify, findRow_given_of_assigned ha hp hh, hm, hf]

/-- With an opcode map every byte has a verdict. -/
theorem Config.identify_total {c : Config} {m : OpcodeMap} (hm : c.opcodeMap = some m) (ob : Byte) :
    ∃ mn, c.identify ob = .ok mn := by
  unfold Config.identify
  rw [hm]
  split
  · exact ⟨_, rfl⟩
  · exact ⟨_, rfl⟩

theorem Mode.length_pos (md : Mode) : 1 ≤ md.length := by
  cases md <;> decide

theorem Mode.length_le (md : Mode) : md.length ≤ 3 := by
  cases md <;> decide

/-- Everything a successful lookup says of its descriptor (R71, R78). -/
theorem Config.lookup_ok {c : Config} {ob : Byte} {d : Descriptor} (h : c.lookup ob = .ok d) :
    d.opcode = ob ∧ d.length = d.mode.length ∧ c.identify ob = .ok d.name := by
  unfold Config.lookup at h
  split at h
  · cases h
  · next mn hid =>
    split at h
    · next hu =>
      split at h
      · cases h
        exact ⟨rfl, rfl, by rw [hid, hu]; rfl⟩
      · cases h
    · cases h
      exact ⟨rfl, rfl, hid⟩

/-- The descriptor of a byte bound to an instruction (R81, R83). -/
theorem Config.lookup_defined {c : Config} {ob : Byte} {mn : Mnemonic} (h : c.identify ob = .ok mn)
    (hu : mn ≠ .unused) : c.lookup ob = .ok (c.definedDescriptor mn ob) := by
  simp [Config.lookup, h, hu]

/-- The descriptor of an unused slot (R80). -/
theorem Config.lookup_unused {c : Config} {ob : Byte} {u : UnusedSlot} (h : c.identify ob = .ok .unused)
    (hs : c.unusedSlot ob = some u) : c.lookup ob = .ok (u.descriptor ob) := by
  simp [Config.lookup, h, hs]

/-! ### `decode` -/

/-- Decoding bytes whose first has a descriptor: the handler of its slot, with exactly the descriptor's operand bytes. -/
theorem decode_of_lookup {c : Config} {ob : Byte} {d : Descriptor} (h : c.lookup ob = .ok d) {rest : List Byte}
    (hl : d.length - 1 ≤ rest.length) :
    decode c (ob :: rest) = .ok (d.name.instr ob (rest.take (d.length - 1)), rest.drop (d.length - 1)) := by
  simp [decode, h, Nat.not_lt.2 hl]

end Sys2Proof
end

