-- ==== Sys2Proof/Laws/State.lean ====
section
/-! SUPPORT. One lemma per field per update of the state, true by `rfl`, and the register file's read after write. -/

namespace Sys2Proof.Machine

/-! ### setReg -/

@[simp] theorem State.setReg_regs (s : State) (r : Sel) (v : Byte) : (s.setReg r v).regs = s.regs.set r.toFin v := rfl
@[simp] theorem State.setReg_sp (s : State) (r : Sel) (v : Byte) : (s.setReg r v).sp = s.sp := rfl
@[simp] theorem State.setReg_pc (s : State) (r : Sel) (v : Byte) : (s.setReg r v).pc = s.pc := rfl
@[simp] theorem State.setReg_flags (s : State) (r : Sel) (v : Byte) : (s.setReg r v).flags = s.flags := rfl
@[simp] theorem State.setReg_q (s : State) (r : Sel) (v : Byte) : (s.setReg r v).q = s.q := rfl
@[simp] theorem State.setReg_lastPc (s : State) (r : Sel) (v : Byte) : (s.setReg r v).lastPc = s.lastPc := rfl
@[simp] theorem State.setReg_cycles (s : State) (r : Sel) (v : Byte) : (s.setReg r v).cycles = s.cycles := rfl
@[simp] theorem State.setReg_mem (s : State) (r : Sel) (v : Byte) : (s.setReg r v).mem = s.mem := rfl
@[simp] theorem State.setReg_config (s : State) (r : Sel) (v : Byte) : (s.setReg r v).config = s.config := rfl
@[simp] theorem State.setReg_read (s : State) (r : Sel) (v : Byte) (a : Addr) : (s.setReg r v).read a = s.read a := rfl

/-! ### setPc -/

@[simp] theorem State.setPc_regs (s : State) (a : Addr) : (s.setPc a).regs = s.regs := rfl
@[simp] theorem State.setPc_sp (s : State) (a : Addr) : (s.setPc a).sp = s.sp := rfl
@[simp] theorem State.setPc_pc (s : State) (a : Addr) : (s.setPc a).pc = a := rfl
@[simp] theorem State.setPc_flags (s : State) (a : Addr) : (s.setPc a).flags = s.flags := rfl
@[simp] theorem State.setPc_q (s : State) (a : Addr) : (s.setPc a).q = s.q := rfl
@[simp] theorem State.setPc_lastPc (s : State) (a : Addr) : (s.setPc a).lastPc = s.lastPc := rfl
@[simp] theorem State.setPc_cycles (s : State) (a : Addr) : (s.setPc a).cycles = s.cycles := rfl
@[simp] theorem State.setPc_mem (s : State) (a : Addr) : (s.setPc a).mem = s.mem := rfl
@[simp] theorem State.setPc_config (s : State) (a : Addr) : (s.setPc a).config = s.config := rfl
@[simp] theorem State.setPc_read (s : State) (p : Addr) (a : Addr) : (s.setPc p).read a = s.read a := rfl
@[simp] theorem State.setPc_reg (s : State) (a : Addr) (k : Sel) : (s.setPc a).reg k = s.reg k := rfl

/-! ### setSp -/

@[simp] theorem State.setSp_regs (s : State) (v : Byte) : (s.setSp v).regs = s.regs := rfl
@[simp] theorem State.setSp_sp (s : State) (v : Byte) : (s.setSp v).sp = v := rfl
@[simp] theorem State.setSp_pc (s : State) (v : Byte) : (s.setSp v).pc = s.pc := rfl
@[simp] theorem State.setSp_flags (s : State) (v : Byte) : (s.setSp v).flags = s.flags := rfl
@[simp] theorem State.setSp_q (s : State) (v : Byte) : (s.setSp v).q = s.q := rfl
@[simp] theorem State.setSp_lastPc (s : State) (v : Byte) : (s.setSp v).lastPc = s.lastPc := rfl
@[simp] theorem State.setSp_cycles (s : State) (v : Byte) : (s.setSp v).cycles = s.cycles := rfl
@[simp] theorem State.setSp_mem (s : State) (v : Byte) : (s.setSp v).mem = s.mem := rfl
@[simp] theorem State.setSp_config (s : State) (v : Byte) : (s.setSp v).config = s.config := rfl
@[simp] theorem State.setSp_read (s : State) (v : Byte) (a : Addr) : (s.setSp v).read a = s.read a := rfl
@[simp] theorem State.setSp_reg (s : State) (v : Byte) (k : Sel) : (s.setSp v).reg k = s.reg k := rfl

/-! ### setQ -/

@[simp] theorem State.setQ_regs (s : State) (v : Byte) : (s.setQ v).regs = s.regs := rfl
@[simp] theorem State.setQ_sp (s : State) (v : Byte) : (s.setQ v).sp = s.sp := rfl
@[simp] theorem State.setQ_pc (s : State) (v : Byte) : (s.setQ v).pc = s.pc := rfl
@[simp] theorem State.setQ_flags (s : State) (v : Byte) : (s.setQ v).flags = s.flags := rfl
@[simp] theorem State.setQ_q (s : State) (v : Byte) : (s.setQ v).q = v := rfl
@[simp] theorem State.setQ_lastPc (s : State) (v : Byte) : (s.setQ v).lastPc = s.lastPc := rfl
@[simp] theorem State.setQ_cycles (s : State) (v : Byte) : (s.setQ v).cycles = s.cycles := rfl
@[simp] theorem State.setQ_mem (s : State) (v : Byte) : (s.setQ v).mem = s.mem := rfl
@[simp] theorem State.setQ_config (s : State) (v : Byte) : (s.setQ v).config = s.config := rfl
@[simp] theorem State.setQ_read (s : State) (v : Byte) (a : Addr) : (s.setQ v).read a = s.read a := rfl
@[simp] theorem State.setQ_reg (s : State) (v : Byte) (k : Sel) : (s.setQ v).reg k = s.reg k := rfl

/-! ### setFlags -/

@[simp] theorem State.setFlags_regs (s : State) (f : Flags) : (s.setFlags f).regs = s.regs := rfl
@[simp] theorem State.setFlags_sp (s : State) (f : Flags) : (s.setFlags f).sp = s.sp := rfl
@[simp] theorem State.setFlags_pc (s : State) (f : Flags) : (s.setFlags f).pc = s.pc := rfl
@[simp] theorem State.setFlags_flags (s : State) (f : Flags) : (s.setFlags f).flags = f := rfl
@[simp] theorem State.setFlags_q (s : State) (f : Flags) : (s.setFlags f).q = s.q := rfl
@[simp] theorem State.setFlags_lastPc (s : State) (f : Flags) : (s.setFlags f).lastPc = s.lastPc := rfl
@[simp] theorem State.setFlags_cycles (s : State) (f : Flags) : (s.setFlags f).cycles = s.cycles := rfl
@[simp] theorem State.setFlags_mem (s : State) (f : Flags) : (s.setFlags f).mem = s.mem := rfl
@[simp] theorem State.setFlags_config (s : State) (f : Flags) : (s.setFlags f).config = s.config := rfl
@[simp] theorem State.setFlags_read (s : State) (f : Flags) (a : Addr) : (s.setFlags f).read a = s.read a := rfl
@[simp] theorem State.setFlags_reg (s : State) (f : Flags) (k : Sel) : (s.setFlags f).reg k = s.reg k := rfl

/-! ### write -/

@[simp] theorem State.write_regs (s : State) (a : Addr) (v : Byte) : (s.write a v).regs = s.regs := rfl
@[simp] theorem State.write_sp (s : State) (a : Addr) (v : Byte) : (s.write a v).sp = s.sp := rfl
@[simp] theorem State.write_pc (s : State) (a : Addr) (v : Byte) : (s.write a v).pc = s.pc := rfl
@[simp] theorem State.write_flags (s : State) (a : Addr) (v : Byte) : (s.write a v).flags = s.flags := rfl
@[simp] theorem State.write_q (s : State) (a : Addr) (v : Byte) : (s.write a v).q = s.q := rfl
@[simp] theorem State.write_lastPc (s : State) (a : Addr) (v : Byte) : (s.write a v).lastPc = s.lastPc := rfl
@[simp] theorem State.write_cycles (s : State) (a : Addr) (v : Byte) : (s.write a v).cycles = s.cycles := rfl
@[simp] theorem State.write_mem (s : State) (a : Addr) (v : Byte) : (s.write a v).mem = s.mem.write a v := rfl
@[simp] theorem State.write_config (s : State) (a : Addr) (v : Byte) : (s.write a v).config = s.config := rfl
@[simp] theorem State.write_reg (s : State) (a : Addr) (v : Byte) (k : Sel) : (s.write a v).reg k = s.reg k := rfl

/-! ### advance -/

@[simp] theorem State.advance_regs (s : State) (n : Nat) : (s.advance n).regs = s.regs := rfl
@[simp] theorem State.advance_sp (s : State) (n : Nat) : (s.advance n).sp = s.sp := rfl
@[simp] theorem State.advance_pc (s : State) (n : Nat) : (s.advance n).pc = s.pc + BitVec.ofNat 16 n := rfl
@[simp] theorem State.advance_flags (s : State) (n : Nat) : (s.advance n).flags = s.flags := rfl
@[simp] theorem State.advance_q (s : State) (n : Nat) : (s.advance n).q = s.q := rfl
@[simp] theorem State.advance_lastPc (s : State) (n : Nat) : (s.advance n).lastPc = s.pc := rfl
@[simp] theorem State.advance_cycles (s : State) (n : Nat) : (s.advance n).cycles = s.cycles := rfl
@[simp] theorem State.advance_mem (s : State) (n : Nat) : (s.advance n).mem = s.mem := rfl
@[simp] theorem State.advance_config (s : State) (n : Nat) : (s.advance n).config = s.config := rfl
@[simp] theorem State.advance_read (s : State) (n : Nat) (a : Addr) : (s.advance n).read a = s.read a := rfl
@[simp] theorem State.advance_reg (s : State) (n : Nat) (k : Sel) : (s.advance n).reg k = s.reg k := rfl

/-! ### charge -/

@[simp] theorem State.charge_regs (s : State) (n : Nat) : (s.charge n).regs = s.regs := rfl
@[simp] theorem State.charge_sp (s : State) (n : Nat) : (s.charge n).sp = s.sp := rfl
@[simp] theorem State.charge_pc (s : State) (n : Nat) : (s.charge n).pc = s.pc := rfl
@[simp] theorem State.charge_flags (s : State) (n : Nat) : (s.charge n).flags = s.flags := rfl
@[simp] theorem State.charge_q (s : State) (n : Nat) : (s.charge n).q = s.q := rfl
@[simp] theorem State.charge_lastPc (s : State) (n : Nat) : (s.charge n).lastPc = s.lastPc := rfl
@[simp] theorem State.charge_cycles (s : State) (n : Nat) : (s.charge n).cycles = s.cycles + n := rfl
@[simp] theorem State.charge_mem (s : State) (n : Nat) : (s.charge n).mem = s.mem := rfl
@[simp] theorem State.charge_config (s : State) (n : Nat) : (s.charge n).config = s.config := rfl
@[simp] theorem State.charge_read (s : State) (n : Nat) (a : Addr) : (s.charge n).read a = s.read a := rfl
@[simp] theorem State.charge_reg (s : State) (n : Nat) (k : Sel) : (s.charge n).reg k = s.reg k := rfl

/-! ### pushByte -/

@[simp] theorem State.pushByte_regs (s : State) (v : Byte) : (s.pushByte v).regs = s.regs := rfl
@[simp] theorem State.pushByte_sp (s : State) (v : Byte) : (s.pushByte v).sp = s.sp - 1#8 := rfl
@[simp] theorem State.pushByte_pc (s : State) (v : Byte) : (s.pushByte v).pc = s.pc := rfl
@[simp] theorem State.pushByte_flags (s : State) (v : Byte) : (s.pushByte v).flags = s.flags := rfl
@[simp] theorem State.pushByte_q (s : State) (v : Byte) : (s.pushByte v).q = s.q := rfl
@[simp] theorem State.pushByte_lastPc (s : State) (v : Byte) : (s.pushByte v).lastPc = s.lastPc := rfl
@[simp] theorem State.pushByte_cycles (s : State) (v : Byte) : (s.pushByte v).cycles = s.cycles := rfl
@[simp] theorem State.pushByte_mem (s : State) (v : Byte) : (s.pushByte v).mem = s.mem.write (stackAddr s.sp) v := rfl
@[simp] theorem State.pushByte_config (s : State) (v : Byte) : (s.pushByte v).config = s.config := rfl
@[simp] theorem State.pushByte_reg (s : State) (v : Byte) (k : Sel) : (s.pushByte v).reg k = s.reg k := rfl

/-! ### popByte -/

@[simp] theorem State.popByte_regs (s : State) : (s.popByte).regs = s.regs := rfl
@[simp] theorem State.popByte_sp (s : State) : (s.popByte).sp = s.sp + 1#8 := rfl
@[simp] theorem State.popByte_pc (s : State) : (s.popByte).pc = s.pc := rfl
@[simp] theorem State.popByte_flags (s : State) : (s.popByte).flags = s.flags := rfl
@[simp] theorem State.popByte_q (s : State) : (s.popByte).q = s.q := rfl
@[simp] theorem State.popByte_lastPc (s : State) : (s.popByte).lastPc = s.lastPc := rfl
@[simp] theorem State.popByte_cycles (s : State) : (s.popByte).cycles = s.cycles := rfl
@[simp] theorem State.popByte_mem (s : State) : (s.popByte).mem = s.mem := rfl
@[simp] theorem State.popByte_config (s : State) : (s.popByte).config = s.config := rfl
@[simp] theorem State.popByte_read (s : State) (a : Addr) : (s.popByte).read a = s.read a := rfl
@[simp] theorem State.popByte_reg (s : State) (k : Sel) : (s.popByte).reg k = s.reg k := rfl

/-! ### setResult -/

@[simp] theorem State.setResult_regs (s : State) (r : Sel) (v : Byte) : (s.setResult r v).regs = s.regs.set r.toFin v := rfl
@[simp] theorem State.setResult_sp (s : State) (r : Sel) (v : Byte) : (s.setResult r v).sp = s.sp := rfl
@[simp] theorem State.setResult_pc (s : State) (r : Sel) (v : Byte) : (s.setResult r v).pc = s.pc := rfl
@[simp] theorem State.setResult_flags (s : State) (r : Sel) (v : Byte) : (s.setResult r v).flags = s.flags.updateNZ v := rfl
@[simp] theorem State.setResult_q (s : State) (r : Sel) (v : Byte) : (s.setResult r v).q = s.q := rfl
@[simp] theorem State.setResult_lastPc (s : State) (r : Sel) (v : Byte) : (s.setResult r v).lastPc = s.lastPc := rfl
@[simp] theorem State.setResult_cycles (s : State) (r : Sel) (v : Byte) : (s.setResult r v).cycles = s.cycles := rfl
@[simp] theorem State.setResult_mem (s : State) (r : Sel) (v : Byte) : (s.setResult r v).mem = s.mem := rfl
@[simp] theorem State.setResult_config (s : State) (r : Sel) (v : Byte) : (s.setResult r v).config = s.config := rfl
@[simp] theorem State.setResult_read (s : State) (r : Sel) (v : Byte) (a : Addr) : (s.setResult r v).read a = s.read a := rfl

/-! ### setResultC -/

@[simp] theorem State.setResultC_regs (s : State) (r : Sel) (v : Byte) (b : Bool) : (s.setResultC r v b).regs = s.regs.set r.toFin v := rfl
@[simp] theorem State.setResultC_sp (s : State) (r : Sel) (v : Byte) (b : Bool) : (s.setResultC r v b).sp = s.sp := rfl
@[simp] theorem State.setResultC_pc (s : State) (r : Sel) (v : Byte) (b : Bool) : (s.setResultC r v b).pc = s.pc := rfl
@[simp] theorem State.setResultC_flags (s : State) (r : Sel) (v : Byte) (b : Bool) : (s.setResultC r v b).flags = (s.flags.setC b).updateNZ v := rfl
@[simp] theorem State.setResultC_q (s : State) (r : Sel) (v : Byte) (b : Bool) : (s.setResultC r v b).q = s.q := rfl
@[simp] theorem State.setResultC_lastPc (s : State) (r : Sel) (v : Byte) (b : Bool) : (s.setResultC r v b).lastPc = s.lastPc := rfl
@[simp] theorem State.setResultC_cycles (s : State) (r : Sel) (v : Byte) (b : Bool) : (s.setResultC r v b).cycles = s.cycles := rfl
@[simp] theorem State.setResultC_mem (s : State) (r : Sel) (v : Byte) (b : Bool) : (s.setResultC r v b).mem = s.mem := rfl
@[simp] theorem State.setResultC_config (s : State) (r : Sel) (v : Byte) (b : Bool) : (s.setResultC r v b).config = s.config := rfl
@[simp] theorem State.setResultC_read (s : State) (r : Sel) (v : Byte) (b : Bool) (a : Addr) : (s.setResultC r v b).read a = s.read a := rfl

/-! ### The flags -/

@[simp] theorem Flags.updateNZ_c (f : Flags) (v : Byte) : (f.updateNZ v).c = f.c := rfl
@[simp] theorem Flags.updateNZ_z (f : Flags) (v : Byte) : (f.updateNZ v).z = (v == 0#8) := rfl
@[simp] theorem Flags.updateNZ_i (f : Flags) (v : Byte) : (f.updateNZ v).i = f.i := rfl
@[simp] theorem Flags.updateNZ_d (f : Flags) (v : Byte) : (f.updateNZ v).d = f.d := rfl
@[simp] theorem Flags.updateNZ_b (f : Flags) (v : Byte) : (f.updateNZ v).b = f.b := rfl
@[simp] theorem Flags.updateNZ_v (f : Flags) (v : Byte) : (f.updateNZ v).v = f.v := rfl
@[simp] theorem Flags.updateNZ_s (f : Flags) (v : Byte) : (f.updateNZ v).s = ((v &&& 0x80#8) != 0#8) := rfl
@[simp] theorem Flags.setC_c (f : Flags) (x : Bool) : (f.setC x).c = x := rfl
@[simp] theorem Flags.setC_z (f : Flags) (x : Bool) : (f.setC x).z = f.z := rfl
@[simp] theorem Flags.setC_i (f : Flags) (x : Bool) : (f.setC x).i = f.i := rfl
@[simp] theorem Flags.setC_d (f : Flags) (x : Bool) : (f.setC x).d = f.d := rfl
@[simp] theorem Flags.setC_b (f : Flags) (x : Bool) : (f.setC x).b = f.b := rfl
@[simp] theorem Flags.setC_v (f : Flags) (x : Bool) : (f.setC x).v = f.v := rfl
@[simp] theorem Flags.setC_s (f : Flags) (x : Bool) : (f.setC x).s = f.s := rfl
@[simp] theorem Flags.assign_c (f : Flags) (m : Byte) (x : Bool) :
    (f.assign m x).c = if m.getLsbD 0 then x else f.c := rfl
@[simp] theorem Flags.assign_z (f : Flags) (m : Byte) (x : Bool) :
    (f.assign m x).z = if m.getLsbD 1 then x else f.z := rfl
@[simp] theorem Flags.assign_i (f : Flags) (m : Byte) (x : Bool) :
    (f.assign m x).i = if m.getLsbD 2 then x else f.i := rfl
@[simp] theorem Flags.assign_d (f : Flags) (m : Byte) (x : Bool) :
    (f.assign m x).d = if m.getLsbD 3 then x else f.d := rfl
@[simp] theorem Flags.assign_b (f : Flags) (m : Byte) (x : Bool) :
    (f.assign m x).b = if m.getLsbD 4 then x else f.b := rfl
@[simp] theorem Flags.assign_v (f : Flags) (m : Byte) (x : Bool) :
    (f.assign m x).v = if m.getLsbD 6 then x else f.v := rfl
@[simp] theorem Flags.assign_s (f : Flags) (m : Byte) (x : Bool) :
    (f.assign m x).s = if m.getLsbD 7 then x else f.s := rfl

/-! ### Registers -/

@[simp] theorem State.reg_setReg_same (s : State) (r : Sel) (v : Byte) : (s.setReg r v).reg r = v := by
  simp [State.reg, State.setReg]

theorem State.reg_setReg_ne (s : State) {r k : Sel} (v : Byte) (h : k ≠ r) : (s.setReg r v).reg k = s.reg k := by
  have hne : r.toNat ≠ k.toNat := fun e => h (BitVec.eq_of_toNat_eq e.symm)
  simp [State.reg, State.setReg, hne]

theorem State.reg_setReg (s : State) (r k : Sel) (v : Byte) :
    (s.setReg r v).reg k = if k = r then v else s.reg k := by
  by_cases h : k = r
  · simp [h]
  · simp [h, State.reg_setReg_ne]

@[simp] theorem State.reg_setResult (s : State) (r k : Sel) (v : Byte) :
    (s.setResult r v).reg k = if k = r then v else s.reg k := State.reg_setReg s r k v

@[simp] theorem State.reg_setResultC (s : State) (r k : Sel) (v : Byte) (b : Bool) :
    (s.setResultC r v b).reg k = if k = r then v else s.reg k := State.reg_setReg s r k v

/-- Two states with the same parts are the same state; registers are compared one by one. -/
theorem State.ext_of_reg {s t : State} (hr : ∀ k, t.reg k = s.reg k) (hsp : t.sp = s.sp) (hpc : t.pc = s.pc)
    (hf : t.flags = s.flags) (hq : t.q = s.q) (hl : t.lastPc = s.lastPc) (hc : t.cycles = s.cycles)
    (hm : t.mem = s.mem) (hcf : t.config = s.config) : t = s := by
  have hregs : t.regs = s.regs := by
    apply Vector.ext
    intro i hi
    simpa [State.reg, Nat.mod_eq_of_lt hi] using hr (BitVec.ofNat 3 i)
  cases s
  cases t
  simp_all

end Sys2Proof.Machine
end

