-- ==== Sys2Proof/Laws/Memory.lean ====
section
/-! SUPPORT. The laws of memory (spec 20_memory.md R50–R57): read after write, and the canonical form. -/

namespace Sys2Proof.Machine

/-! ### Keys -/

@[simp] theorem Memory.readNat_nil (a : Nat) : Memory.readNat [] a = 0#8 := rfl

theorem Memory.readNat_erase_same (m : Memory) (a : Nat) : (m.erase a).readNat a = 0#8 := by
  induction m with
  | nil => rfl
  | cons cell m ih =>
    by_cases hk : cell.1 = a
    · simp [Memory.erase, hk, ih]
    · simp [Memory.erase, Memory.readNat, hk, ih]

theorem Memory.readNat_erase_ne (m : Memory) {a b : Nat} (h : b ≠ a) : (m.erase a).readNat b = m.readNat b := by
  induction m with
  | nil => rfl
  | cons cell m ih =>
    by_cases hk : cell.1 = a
    · simp [Memory.erase, Memory.readNat, hk, ih, h.symm]
    · simp [Memory.erase, Memory.readNat, hk, ih]

theorem Memory.readNat_insert_same (m : Memory) (a : Nat) (v : Byte) (h : ∀ cell ∈ m, cell.1 ≠ a) :
    (m.insert a v).readNat a = v := by
  induction m with
  | nil => simp [Memory.insert, Memory.readNat]
  | cons cell m ih =>
    have hk : cell.1 ≠ a := h cell (by simp)
    by_cases hlt : a < cell.1
    · simp [Memory.insert, Memory.readNat, hlt]
    · simp [Memory.insert, Memory.readNat, hlt, hk, ih fun c hc => h c (by simp [hc])]

theorem Memory.readNat_insert_ne (m : Memory) {a b : Nat} (v : Byte) (h : b ≠ a) :
    (m.insert a v).readNat b = m.readNat b := by
  induction m with
  | nil => simp [Memory.insert, Memory.readNat, h.symm]
  | cons cell m ih =>
    by_cases hlt : a < cell.1
    · simp [Memory.insert, Memory.readNat, hlt, h.symm]
    · simp [Memory.insert, Memory.readNat, hlt, ih]

theorem Memory.mem_erase {m : Memory} {a : Nat} {cell : Host.Cell} :
    cell ∈ m.erase a ↔ cell ∈ m ∧ cell.1 ≠ a := by
  induction m with
  | nil => simp [Memory.erase]
  | cons c m ih =>
    by_cases hk : c.1 = a
    · simp only [Memory.erase, hk, if_true, ih, List.mem_cons]
      constructor
      · rintro ⟨h, hne⟩
        exact ⟨.inr h, hne⟩
      · rintro ⟨rfl | h, hne⟩
        · exact absurd hk hne
        · exact ⟨h, hne⟩
    · simp only [Memory.erase, hk, if_false, ih, List.mem_cons]
      constructor
      · rintro (rfl | ⟨h, hne⟩)
        · exact ⟨.inl rfl, hk⟩
        · exact ⟨.inr h, hne⟩
      · rintro ⟨rfl | h, hne⟩
        · exact .inl rfl
        · exact .inr ⟨h, hne⟩

/-! ### Addresses (R51, R52) -/

@[simp] theorem Memory.read_nil (a : Addr) : Memory.read [] a = 0#8 := rfl

/-- Read after write: the byte written, and every other byte as before. -/
theorem Memory.read_write (m : Memory) (a b : Addr) (v : Byte) :
    (m.write a v).read b = if b = a then v else m.read b := by
  unfold Memory.write Memory.read
  by_cases hb : b = a
  · subst hb
    split
    · next hv => simp [Memory.readNat_erase_same, hv]
    · simp [Memory.readNat_insert_same _ _ _ fun _ hc => (Memory.mem_erase.1 hc).2]
  · have hn : b.toNat ≠ a.toNat := fun e => hb (BitVec.eq_of_toNat_eq e)
    split
    · simp [Memory.readNat_erase_ne m hn]
    · simp [Memory.readNat_insert_ne _ v hn, Memory.readNat_erase_ne m hn]

@[simp] theorem Memory.read_write_same (m : Memory) (a : Addr) (v : Byte) : (m.write a v).read a = v := by
  simp [Memory.read_write]

theorem Memory.read_write_ne (m : Memory) {a b : Addr} (v : Byte) (h : b ≠ a) :
    (m.write a v).read b = m.read b := by
  simp [Memory.read_write, h]

@[simp] theorem State.read_write (s : State) (a b : Addr) (v : Byte) :
    (s.write a v).read b = if b = a then v else s.read b := Memory.read_write s.mem a b v

@[simp] theorem State.read_pushByte (s : State) (b : Addr) (v : Byte) :
    (s.pushByte v).read b = if b = stackAddr s.sp then v else s.read b := Memory.read_write s.mem _ b v

/-! ### The canonical form -/

theorem Memory.wf_iff (m : Memory) :
    m.wf = true ↔ (m.Pairwise fun a b => a.1 < b.1) ∧ ∀ cell ∈ m, cell.1 < 65536 ∧ cell.2 ≠ 0#8 := by
  simp [Memory.wf]

theorem Memory.erase_sublist (m : Memory) (a : Nat) : (m.erase a).Sublist m := by
  induction m with
  | nil => simp [Memory.erase]
  | cons c m ih =>
    obtain ⟨k, w⟩ := c
    by_cases hk : k = a
    · simp only [Memory.erase, hk, if_true]
      exact ih.cons _
    · simp only [Memory.erase, hk, if_false]
      exact ih.cons_cons _

theorem Memory.mem_insert {m : Memory} {a : Nat} {v : Byte} {cell : Host.Cell} :
    cell ∈ m.insert a v ↔ cell = (a, v) ∨ cell ∈ m := by
  induction m with
  | nil => simp [Memory.insert]
  | cons c m ih =>
    obtain ⟨k, w⟩ := c
    by_cases hlt : a < k
    · simp [Memory.insert, hlt]
    · simp only [Memory.insert, hlt, if_false, List.mem_cons, ih]
      tauto

theorem Memory.pairwise_insert {m : Memory} {a : Nat} {v : Byte} (hm : m.Pairwise fun a b => a.1 < b.1)
    (hne : ∀ cell ∈ m, cell.1 ≠ a) : (m.insert a v).Pairwise fun a b => a.1 < b.1 := by
  induction m with
  | nil => simp [Memory.insert]
  | cons c m ih =>
    obtain ⟨k, w⟩ := c
    rw [List.pairwise_cons] at hm
    by_cases hlt : a < k
    · simp only [Memory.insert, hlt, if_true, List.pairwise_cons]
      refine ⟨?_, hm⟩
      rintro x hx
      rcases List.mem_cons.1 hx with rfl | hx
      · exact hlt
      · exact lt_trans hlt (hm.1 x hx)
    · have hka : k ≠ a := hne (k, w) (by simp)
      simp only [Memory.insert, hlt, if_false, List.pairwise_cons]
      refine ⟨?_, ih hm.2 fun x hx => hne x (List.mem_cons_of_mem _ hx)⟩
      intro x hx
      rcases Memory.mem_insert.1 hx with rfl | hx
      · exact lt_of_le_of_ne (Nat.le_of_not_lt hlt) hka
      · exact hm.1 x hx

/-- A write keeps the canonical form. -/
theorem Memory.write_wf {m : Memory} (a : Addr) (v : Byte) (h : m.wf = true) : (m.write a v).wf = true := by
  rw [Memory.wf_iff] at h ⊢
  have hpe := h.1.sublist (Memory.erase_sublist m a.toNat)
  unfold Memory.write
  split
  · exact ⟨hpe, fun cell hc => h.2 cell (Memory.mem_erase.1 hc).1⟩
  · next hv =>
    refine ⟨Memory.pairwise_insert hpe fun cell hc => (Memory.mem_erase.1 hc).2, ?_⟩
    intro cell hc
    rcases Memory.mem_insert.1 hc with rfl | hc
    · exact ⟨a.isLt, hv⟩
    · exact h.2 cell (Memory.mem_erase.1 hc).1

theorem Memory.writeBytes_wf {m : Memory} (a : Addr) (vs : List Byte) (h : m.wf = true) :
    (m.writeBytes a vs).wf = true := by
  induction vs generalizing m a with
  | nil => exact h
  | cons v vs ih => exact ih (a + 1#16) (Memory.write_wf a v h)

/-- Reset memory has the canonical form. -/
theorem State.reset_mem_wf : State.reset.mem.wf = true := by
  decide

/-! ### Sequences (R54) -/

@[simp] theorem Memory.length_readBytes (m : Memory) (a : Addr) (n : Nat) : (m.readBytes a n).length = n := by
  induction n generalizing a with
  | zero => rfl
  | succ n ih => simp [Memory.readBytes, ih]

/-- A shorter sequence is the head of a longer one. -/
theorem Memory.take_readBytes (m : Memory) (a : Addr) {k n : Nat} (h : k ≤ n) :
    (m.readBytes a n).take k = m.readBytes a k := by
  induction n generalizing a k with
  | zero => simp [Nat.le_zero.1 h, Memory.readBytes]
  | succ n ih =>
    cases k with
    | zero => simp [Memory.readBytes]
    | succ k => exact congrArg (m.read a :: ·) (ih (a + 1#16) (Nat.le_of_succ_le_succ h))

/-! ### The stack page (R25) -/

/-- Every stack address lies in $0100–$01FF: page 1, the low byte SP. -/
theorem stackAddr_toNat : ∀ sp : Byte, (stackAddr sp).toNat = 256 + sp.toNat := by
  decide

theorem stackAddr_inj {a b : Byte} : stackAddr a = stackAddr b ↔ a = b := by
  constructor
  · intro h
    have := congrArg BitVec.toNat h
    rw [stackAddr_toNat, stackAddr_toNat] at this
    exact BitVec.eq_of_toNat_eq (by omega)
  · rintro rfl
    rfl

end Sys2Proof.Machine
end

