-- ==== Sys2Proof/Laws/PerInstr.lean ====
section
/-! SUPPORT. Facts about each instruction as it is written and encoded: one lemma for each constructor of `Instr`. -/

namespace Sys2Proof.Laws

/-- The encoding has as many operand bytes as the instruction's mode says (R71, R81), or the unused slot's length (R80). -/
def EncodedLength.Statement (i : Instr) : Prop :=
  ∀ c : Config, (i.operands c).length + 1 =
    match i with
    | .unused ob => ((c.unusedSlot ob).map fun u => u.mode.length).getD 1
    | j          => j.mnemonic.mode.length

theorem EncodedLength.nop : EncodedLength.Statement (.nop) := by
  exact fun _ => rfl

theorem EncodedLength.halt : EncodedLength.Statement (.halt) := by
  exact fun _ => rfl

theorem EncodedLength.adr (a b) : EncodedLength.Statement (.adr a b) := by
  exact fun _ => rfl

theorem EncodedLength.adi (a b) : EncodedLength.Statement (.adi a b) := by
  exact fun _ => rfl

theorem EncodedLength.adm (a b) : EncodedLength.Statement (.adm a b) := by
  exact fun _ => rfl

theorem EncodedLength.sub (a b) : EncodedLength.Statement (.sub a b) := by
  exact fun _ => rfl

theorem EncodedLength.subi (a b) : EncodedLength.Statement (.subi a b) := by
  exact fun _ => rfl

theorem EncodedLength.subm (a b) : EncodedLength.Statement (.subm a b) := by
  exact fun _ => rfl

theorem EncodedLength.andR (a b) : EncodedLength.Statement (.andR a b) := by
  exact fun _ => rfl

theorem EncodedLength.ani (a b) : EncodedLength.Statement (.ani a b) := by
  exact fun _ => rfl

theorem EncodedLength.orR (a b) : EncodedLength.Statement (.orR a b) := by
  exact fun _ => rfl

theorem EncodedLength.ori (a b) : EncodedLength.Statement (.ori a b) := by
  exact fun _ => rfl

theorem EncodedLength.xorR (a b) : EncodedLength.Statement (.xorR a b) := by
  exact fun _ => rfl

theorem EncodedLength.xri (a b) : EncodedLength.Statement (.xri a b) := by
  exact fun _ => rfl

theorem EncodedLength.inc (a) : EncodedLength.Statement (.inc a) := by
  exact fun _ => rfl

theorem EncodedLength.dec (a) : EncodedLength.Statement (.dec a) := by
  exact fun _ => rfl

theorem EncodedLength.shl (a) : EncodedLength.Statement (.shl a) := by
  exact fun _ => rfl

theorem EncodedLength.shlc (a) : EncodedLength.Statement (.shlc a) := by
  exact fun _ => rfl

theorem EncodedLength.shr (a) : EncodedLength.Statement (.shr a) := by
  exact fun _ => rfl

theorem EncodedLength.shrc (a) : EncodedLength.Statement (.shrc a) := by
  exact fun _ => rfl

theorem EncodedLength.cmp (a b) : EncodedLength.Statement (.cmp a b) := by
  exact fun _ => rfl

theorem EncodedLength.ex (a b) : EncodedLength.Statement (.ex a b) := by
  exact fun _ => rfl

theorem EncodedLength.ldi (a b) : EncodedLength.Statement (.ldi a b) := by
  exact fun _ => rfl

theorem EncodedLength.ldm (a b) : EncodedLength.Statement (.ldm a b) := by
  exact fun _ => rfl

theorem EncodedLength.sti (a b) : EncodedLength.Statement (.sti a b) := by
  exact fun _ => rfl

theorem EncodedLength.lbr (a) : EncodedLength.Statement (.lbr a) := by
  exact fun _ => rfl

theorem EncodedLength.lbrc (a) : EncodedLength.Statement (.lbrc a) := by
  exact fun _ => rfl

theorem EncodedLength.lbrz (a) : EncodedLength.Statement (.lbrz a) := by
  exact fun _ => rfl

theorem EncodedLength.lbrq (a b) : EncodedLength.Statement (.lbrq a b) := by
  exact fun _ => rfl

theorem EncodedLength.setq (a) : EncodedLength.Statement (.setq a) := by
  exact fun _ => rfl

theorem EncodedLength.resetq (a) : EncodedLength.Statement (.resetq a) := by
  exact fun _ => rfl

theorem EncodedLength.push (a) : EncodedLength.Statement (.push a) := by
  exact fun _ => rfl

theorem EncodedLength.pop (a) : EncodedLength.Statement (.pop a) := by
  exact fun _ => rfl

theorem EncodedLength.call (a) : EncodedLength.Statement (.call a) := by
  exact fun _ => rfl

theorem EncodedLength.ret : EncodedLength.Statement (.ret) := by
  exact fun _ => rfl

theorem EncodedLength.spsr (a) : EncodedLength.Statement (.spsr a) := by
  exact fun _ => rfl

theorem EncodedLength.cpsr (a) : EncodedLength.Statement (.cpsr a) := by
  exact fun _ => rfl

theorem EncodedLength.unused (a) : EncodedLength.Statement (.unused a) := by
  intro c
  have h : 1 ≤ ((c.unusedSlot a).map fun u => u.mode.length).getD 1 := by
    cases c.unusedSlot a with
    | none => simp
    | some u => simpa using Mode.length_pos u.mode
  simpa [Instr.operands] using Nat.sub_add_cancel h

/-- The handler of the instruction's slot reads back the operands the encoder wrote (R72–R77). -/
def OperandsReadBack.Statement (i : Instr) : Prop :=
  ∀ (c : Config) (p : Pattern), c.patternOf i = some p → i.mnemonic.instr (p.byte i.selector) (i.operands c) = i

theorem OperandsReadBack.nop : OperandsReadBack.Statement (.nop) := by
  exact fun _ _ _ => rfl

theorem OperandsReadBack.halt : OperandsReadBack.Statement (.halt) := by
  exact fun _ _ _ => rfl

theorem OperandsReadBack.adr (a b) : OperandsReadBack.Statement (.adr a b) := by
  intro c p _
  simp [Mnemonic.instr, Instr.mnemonic, Instr.operands]

theorem OperandsReadBack.adi (a b) : OperandsReadBack.Statement (.adi a b) := by
  intro c p h
  obtain ⟨m, -, rfl⟩ := Option.map_eq_some_iff.1 h
  simp [Mnemonic.instr, Instr.mnemonic, Instr.operands, Instr.selector]

theorem OperandsReadBack.adm (a b) : OperandsReadBack.Statement (.adm a b) := by
  intro c p h
  obtain ⟨m, -, rfl⟩ := Option.map_eq_some_iff.1 h
  simp [Mnemonic.instr, Instr.mnemonic, Instr.operands, Instr.selector]

theorem OperandsReadBack.sub (a b) : OperandsReadBack.Statement (.sub a b) := by
  intro c p _
  simp [Mnemonic.instr, Instr.mnemonic, Instr.operands]

theorem OperandsReadBack.subi (a b) : OperandsReadBack.Statement (.subi a b) := by
  intro c p h
  obtain ⟨m, -, rfl⟩ := Option.map_eq_some_iff.1 h
  simp [Mnemonic.instr, Instr.mnemonic, Instr.operands, Instr.selector]

theorem OperandsReadBack.subm (a b) : OperandsReadBack.Statement (.subm a b) := by
  intro c p h
  obtain ⟨m, -, rfl⟩ := Option.map_eq_some_iff.1 h
  simp [Mnemonic.instr, Instr.mnemonic, Instr.operands, Instr.selector]

theorem OperandsReadBack.andR (a b) : OperandsReadBack.Statement (.andR a b) := by
  intro c p _
  simp [Mnemonic.instr, Instr.mnemonic, Instr.operands]

theorem OperandsReadBack.ani (a b) : OperandsReadBack.Statement (.ani a b) := by
  intro c p h
  obtain ⟨m, -, rfl⟩ := Option.map_eq_some_iff.1 h
  simp [Mnemonic.instr, Instr.mnemonic, Instr.operands, Instr.selector]

theorem OperandsReadBack.orR (a b) : OperandsReadBack.Statement (.orR a b) := by
  intro c p _
  simp [Mnemonic.instr, Instr.mnemonic, Instr.operands]

theorem OperandsReadBack.ori (a b) : OperandsReadBack.Statement (.ori a b) := by
  intro c p h
  obtain ⟨m, -, rfl⟩ := Option.map_eq_some_iff.1 h
  simp [Mnemonic.instr, Instr.mnemonic, Instr.operands, Instr.selector]

theorem OperandsReadBack.xorR (a b) : OperandsReadBack.Statement (.xorR a b) := by
  intro c p _
  simp [Mnemonic.instr, Instr.mnemonic, Instr.operands]

theorem OperandsReadBack.xri (a b) : OperandsReadBack.Statement (.xri a b) := by
  intro c p h
  obtain ⟨m, -, rfl⟩ := Option.map_eq_some_iff.1 h
  simp [Mnemonic.instr, Instr.mnemonic, Instr.operands, Instr.selector]

theorem OperandsReadBack.inc (a) : OperandsReadBack.Statement (.inc a) := by
  intro c p h
  obtain ⟨m, -, rfl⟩ := Option.map_eq_some_iff.1 h
  simp [Mnemonic.instr, Instr.mnemonic, Instr.selector]

theorem OperandsReadBack.dec (a) : OperandsReadBack.Statement (.dec a) := by
  intro c p h
  obtain ⟨m, -, rfl⟩ := Option.map_eq_some_iff.1 h
  simp [Mnemonic.instr, Instr.mnemonic, Instr.selector]

theorem OperandsReadBack.shl (a) : OperandsReadBack.Statement (.shl a) := by
  intro c p h
  obtain ⟨m, -, rfl⟩ := Option.map_eq_some_iff.1 h
  simp [Mnemonic.instr, Instr.mnemonic, Instr.selector]

theorem OperandsReadBack.shlc (a) : OperandsReadBack.Statement (.shlc a) := by
  intro c p h
  obtain ⟨m, -, rfl⟩ := Option.map_eq_some_iff.1 h
  simp [Mnemonic.instr, Instr.mnemonic, Instr.selector]

theorem OperandsReadBack.shr (a) : OperandsReadBack.Statement (.shr a) := by
  intro c p h
  obtain ⟨m, -, rfl⟩ := Option.map_eq_some_iff.1 h
  simp [Mnemonic.instr, Instr.mnemonic, Instr.selector]

theorem OperandsReadBack.shrc (a) : OperandsReadBack.Statement (.shrc a) := by
  intro c p h
  obtain ⟨m, -, rfl⟩ := Option.map_eq_some_iff.1 h
  simp [Mnemonic.instr, Instr.mnemonic, Instr.selector]

theorem OperandsReadBack.cmp (a b) : OperandsReadBack.Statement (.cmp a b) := by
  intro c p _
  simp [Mnemonic.instr, Instr.mnemonic, Instr.operands]

theorem OperandsReadBack.ex (a b) : OperandsReadBack.Statement (.ex a b) := by
  intro c p _
  simp [Mnemonic.instr, Instr.mnemonic, Instr.operands]

theorem OperandsReadBack.ldi (a b) : OperandsReadBack.Statement (.ldi a b) := by
  intro c p h
  cases h
  simp [Mnemonic.instr, Instr.mnemonic, Instr.operands, Instr.selector]

theorem OperandsReadBack.ldm (a b) : OperandsReadBack.Statement (.ldm a b) := by
  intro c p h
  obtain ⟨m, -, rfl⟩ := Option.map_eq_some_iff.1 h
  simp [Mnemonic.instr, Instr.mnemonic, Instr.operands, Instr.selector]

theorem OperandsReadBack.sti (a b) : OperandsReadBack.Statement (.sti a b) := by
  intro c p h
  cases h
  simp [Mnemonic.instr, Instr.mnemonic, Instr.operands, Instr.selector]

theorem OperandsReadBack.lbr (a) : OperandsReadBack.Statement (.lbr a) := by
  intro c p _
  simp [Mnemonic.instr, Instr.mnemonic, Instr.operands]

theorem OperandsReadBack.lbrc (a) : OperandsReadBack.Statement (.lbrc a) := by
  intro c p _
  simp [Mnemonic.instr, Instr.mnemonic, Instr.operands]

theorem OperandsReadBack.lbrz (a) : OperandsReadBack.Statement (.lbrz a) := by
  intro c p _
  simp [Mnemonic.instr, Instr.mnemonic, Instr.operands]

theorem OperandsReadBack.lbrq (a b) : OperandsReadBack.Statement (.lbrq a b) := by
  intro c p h
  obtain ⟨m, -, rfl⟩ := Option.map_eq_some_iff.1 h
  simp [Mnemonic.instr, Instr.mnemonic, Instr.operands, Instr.selector]

theorem OperandsReadBack.setq (a) : OperandsReadBack.Statement (.setq a) := by
  intro c p h
  cases h
  simp [Mnemonic.instr, Instr.mnemonic, Instr.selector]

theorem OperandsReadBack.resetq (a) : OperandsReadBack.Statement (.resetq a) := by
  intro c p h
  obtain ⟨m, -, rfl⟩ := Option.map_eq_some_iff.1 h
  simp [Mnemonic.instr, Instr.mnemonic, Instr.selector]

theorem OperandsReadBack.push (a) : OperandsReadBack.Statement (.push a) := by
  intro c p h
  cases h
  simp [Mnemonic.instr, Instr.mnemonic, Instr.selector]

theorem OperandsReadBack.pop (a) : OperandsReadBack.Statement (.pop a) := by
  intro c p h
  cases h
  simp [Mnemonic.instr, Instr.mnemonic, Instr.selector]

theorem OperandsReadBack.call (a) : OperandsReadBack.Statement (.call a) := by
  intro c p _
  simp [Mnemonic.instr, Instr.mnemonic, Instr.operands]

theorem OperandsReadBack.ret : OperandsReadBack.Statement (.ret) := by
  exact fun _ _ _ => rfl

theorem OperandsReadBack.spsr (a) : OperandsReadBack.Statement (.spsr a) := by
  exact fun _ _ _ => rfl

theorem OperandsReadBack.cpsr (a) : OperandsReadBack.Statement (.cpsr a) := by
  exact fun _ _ _ => rfl

theorem OperandsReadBack.unused (a) : OperandsReadBack.Statement (.unused a) := by
  intro c p h
  cases h
  rfl

end Sys2Proof.Laws
end

