-- ==== Sys2Proof/Laws/Step.lean ====
section
/-! SUPPORT. What a handler and a Step can do, said once (spec 40_execution.md R101–R105). -/

namespace Sys2Proof.Machine

/-! ### Handlers -/

/-- No handler stops (R200): every instruction's own effect is a next state. -/
theorem exec_next (i : Instr) (s : State) : ∃ t, exec i s = .next t := by
  cases i <;> exact ⟨_, rfl⟩

/-- No handler writes LastPC, Cycles or the configuration (R34, R35, R36). -/
theorem exec_handlerFrame {i : Instr} {s t : State} (h : exec i s = .next t) : HandlerFrame s t := by
  cases i <;> cases h <;> first
    | exact ⟨rfl, rfl, rfl⟩
    | (unfold State.branchIf; split <;> exact ⟨rfl, rfl, rfl⟩)

/-- Memory is written only through `Memory.write`, so a handler keeps its canonical form. -/
theorem exec_mem_wf {i : Instr} {s t : State} (h : exec i s = .next t) (hm : s.mem.wf = true) : t.mem.wf = true := by
  cases i <;> cases h <;> first
    | exact hm
    | exact Memory.write_wf _ _ hm
    | exact Memory.write_wf _ _ (Memory.write_wf _ _ hm)
    | (unfold State.branchIf; split <;> exact hm)

/-! ### Fetch -/

theorem spanFits_iff (c : Config) (a : Addr) (n : Nat) :
    spanFits c a n = true ↔ a.toNat + n < 65536 ∨ c.addrWrap = .wrap := by
  simp [spanFits]

/-- A fetch that succeeds: the byte at PC has a descriptor, its bytes and the advanced PC fit, and the instruction is
the slot's with its operand bytes. -/
theorem fetch_next {s : State} {f : Fetched} :
    fetch s = .next f ↔ s.config.lookup s.opcode = .ok f.desc ∧ s.Fits f.desc.length ∧
      f.instr = f.desc.name.instr s.opcode (s.operandBytes f.desc) := by
  unfold fetch
  cases hl : s.config.lookup s.opcode with
  | error e => simp
  | ok d =>
    by_cases hf : spanFits s.config s.pc d.length = true
    · have hfits : s.Fits d.length := (spanFits_iff ..).1 hf
      simp only [hf, if_true, Host.Outcome.next.injEq, Except.ok.injEq]
      constructor
      · rintro rfl
        exact ⟨rfl, hfits, rfl⟩
      · obtain ⟨fi, fd⟩ := f
        rintro ⟨rfl, -, hi⟩
        simpa using hi.symm
    · have hnf : ¬ s.Fits d.length := fun h => hf ((spanFits_iff ..).2 h)
      simp only [hf, Bool.false_eq_true, if_false, reduceCtorEq, Except.ok.injEq, false_iff, not_and]
      rintro rfl h
      exact absurd h hnf

/-- A fetch that faults (R104, R204). -/
theorem fetch_fault {s : State} {r : Fault} :
    fetch s = .fault r ↔ r = .addressOverflow ∧ ∃ d, s.config.lookup s.opcode = .ok d ∧ ¬ s.Fits d.length := by
  unfold fetch
  cases hl : s.config.lookup s.opcode with
  | error e => simp
  | ok d =>
    by_cases hf : spanFits s.config s.pc d.length = true
    · have hfits : s.Fits d.length := (spanFits_iff ..).1 hf
      simp [hf, hfits]
    · have hnf : ¬ s.Fits d.length := fun h => hf ((spanFits_iff ..).2 h)
      cases r
      simp [hf, hnf]

/-- A fetch that is refused (R102, R202). -/
theorem fetch_refused {s : State} {r : Refusal} :
    fetch s = .refused r ↔ ∃ e, s.config.lookup s.opcode = .error e ∧ r = refusalOf s.opcode e := by
  unfold fetch
  cases hl : s.config.lookup s.opcode with
  | error e => simp [eq_comm]
  | ok d =>
    by_cases hf : spanFits s.config s.pc d.length = true <;> simp [hf]

/-! ### The Step -/

/-- A Step that succeeds is the six steps of R101. -/
theorem step_next {s t : State} :
    step s = .next t ↔ ∃ d u, s.config.lookup s.opcode = .ok d ∧ s.Fits d.length ∧
      exec (d.name.instr s.opcode (s.operandBytes d)) (s.advance d.length) = .next u ∧ t = u.charge d.cycles := by
  constructor
  · intro h
    unfold step at h
    cases hf : fetch s with
    | fault r => rw [hf] at h; cases h
    | refused r => rw [hf] at h; cases h
    | next f =>
      rw [hf] at h
      obtain ⟨hl, hfit, hi⟩ := fetch_next.1 hf
      obtain ⟨u, hu⟩ := exec_next f.instr (s.advance f.desc.length)
      simp only [hu, Host.Outcome.next.injEq] at h
      exact ⟨f.desc, u, hl, hfit, hi ▸ hu, h.symm⟩
  · rintro ⟨d, u, hl, hfit, hu, rfl⟩
    have hf : fetch s = .next ⟨d.name.instr s.opcode (s.operandBytes d), d⟩ := fetch_next.2 ⟨hl, hfit, rfl⟩
    simp [step, hf, hu]

/-- A Step faults exactly when its fetch does. -/
theorem step_fault {s : State} {r : Fault} : step s = .fault r ↔ fetch s = .fault r := by
  unfold step
  cases hf : fetch s with
  | fault r => simp
  | refused r => simp
  | next f =>
    obtain ⟨u, hu⟩ := exec_next f.instr (s.advance f.desc.length)
    simp [hu]

/-- A Step is refused exactly when its fetch is. -/
theorem step_refused {s : State} {r : Refusal} : step s = .refused r ↔ fetch s = .refused r := by
  unfold step
  cases hf : fetch s with
  | fault r => simp
  | refused r => simp
  | next f =>
    obtain ⟨u, hu⟩ := exec_next f.instr (s.advance f.desc.length)
    simp [hu]

/-! ### Runs -/

/-- A run of so many Steps reaches one state. -/
theorem Runs.det {n : Nat} {s t u : State} (h : Runs n s t) (h' : Runs n s u) : t = u := by
  induction h with
  | zero s => cases h'; rfl
  | succ h1 _ ih =>
    cases h' with
    | succ h2 h3 => exact ih (Host.Outcome.next.inj (h1.symm.trans h2) ▸ h3)

/-- One more Step at the end of a run. -/
theorem Runs.snoc {n : Nat} {s t u : State} (h : Runs n s t) (hu : step t = .next u) : Runs (n + 1) s u := by
  induction h with
  | zero s => exact .succ hu (.zero u)
  | succ h1 _ ih => exact .succ h1 (ih hu)

end Sys2Proof.Machine
end

