-- ==== Sys2Proof/Tests/Slice0.lean ====
section
/-! SUPPORT. The model's own tests: the well-formedness smoke tests, decoding of words written out from the spec's
encodings, single Steps from spec 95_test_vectors.md (named by vector), and a witness for the hypotheses of every statement.
Bytes the source does not give are those of `OpcodeMap.sample`, which is data for tests and no claim about hardware: the
vectors hold for every map. -/

namespace Sys2Proof.Tests

open Sys2Proof Sys2Proof.Machine

-- The tests are checked one after another: many at once exhaust the threads' memory.
set_option Elab.async false

/-! ## Helpers -/

/-- The standard start state of 95_test_vectors.md over the sample configuration, with bytes stored at an address and PC
there. -/
def start (pc : Addr) (bytes : List Byte) : State :=
  let s := State.construct Config.sample []
  { s with pc := pc, mem := s.mem.writeBytes pc bytes }

/-- The sample configuration with no opcode map. -/
def noMap : Config := { Config.sample with opcodeMap := none }

/-- The sample configuration with no unused slots. -/
def noSlots : Config := { Config.sample with unusedNmos := Vector.replicate 256 none }

/-- The sample configuration with the other values of `CMP_UNEQUAL` and `ADDR_WRAP`. -/
def keepWrap : Config := { Config.sample with cmpUnequal := .keep, addrWrap := .wrap }

/-- A state over another configuration. -/
def setup (c : Config) (s : State) : State := { s with config := c }

/-- The outcome is a next state with a property. -/
def gives (o : Host.Outcome State Fault Refusal) (p : State → Bool) : Bool :=
  match o with
  | .next t => p t
  | _       => false

/-- The outcome is a fault or refusal with a property. -/
def stops (o : Host.Outcome State Fault Refusal) (f : Fault → Bool) (r : Refusal → Bool) : Bool :=
  match o with
  | .next _    => false
  | .fault x   => f x
  | .refused x => r x

/-- The bytes decode to the instruction, none left. -/
def reads (c : Config) (bytes : List Byte) (i : Instr) : Bool :=
  match decode c bytes with
  | .ok (j, []) => j == i
  | _           => false

theorem next_of_gives {o : Host.Outcome State Fault Refusal} {p : State → Bool} (h : gives o p = true) :
    ∃ t, o = .next t ∧ p t = true := by
  cases o with
  | next t => exact ⟨t, rfl, h⟩
  | fault r => cases h
  | refused r => cases h

/-- The flags of a packed byte, for short. -/
def flagsOf (v : Byte) : Flags := Flags.unpack v

/-! ## Well-formedness: an ill-formed term for each check -/

/-- An instruction whose byte no map assigns (R85). -/
theorem test_wf_no_map :
    Instr.wellFormed noMap (.adi 2#3 0x10#8) = false := by
  decide +kernel

/-- An instruction the source gives a byte needs no map (R79). -/
theorem test_wf_given_needs_no_map :
    Instr.wellFormed noMap (.ldi 2#3 0x10#8) = true := by
  decide +kernel

/-- A byte bound to LDI, and one the map binds to SUB, are no unused slots (R80). -/
theorem test_wf_bound_byte_is_not_unused :
    Instr.wellFormed Config.sample (.unused 0xE0#8) = false ∧ Instr.wellFormed Config.sample (.unused 0x81#8) = false := by
  decide +kernel

/-- An unused slot with no configured length; a byte whose slot no map decides (R80, R85). -/
theorem test_wf_unused_not_configured :
    Instr.wellFormed noSlots (.unused 0xF0#8) = false ∧ Instr.wellFormed noMap (.unused 0xF0#8) = false := by
  decide +kernel

/-- A given unused slot, and a configured one. -/
theorem test_wf_unused :
    Instr.wellFormed noMap (.unused 0x1E#8) = true ∧ Instr.wellFormed Config.sample (.unused 0xF0#8) = true := by
  decide +kernel

/-- Maps R84 (c) does not admit: a family on LDI's block, a byte used twice, a byte inside a family. -/
theorem test_opcode_map_refused :
    OpcodeMap.admitted { OpcodeMap.sample with adi := 0b11100#5 } = false ∧
    OpcodeMap.admitted { OpcodeMap.sample with sub := 0x86#8 } = false ∧
    OpcodeMap.admitted { OpcodeMap.sample with ret := 0x0F#8 } = false := by
  decide +kernel

/-! ## Decoding words written out from R72–R79 -/

/-- R79: $00, $01, $18. -/
theorem test_decode_fixed_given :
    reads noMap [0x00#8] (.nop) = true ∧
    reads noMap [0x01#8] (.halt) = true ∧
    reads noMap [0x18#8, 0x02#8, 0x10#8] (.lbr 0x0210#16) = true := by
  decide +kernel

/-- R74, V-AL4: 0 000 0 001, then bits 7 and 3 set, then 0 111 0 101. -/
theorem test_decode_dual_given :
    reads noMap [0x80#8, 0x01#8] (.adr 0#3 1#3) = true ∧
    reads noMap [0x80#8, 0x89#8] (.adr 0#3 1#3) = true ∧
    reads noMap [0x80#8, 0x75#8] (.adr 7#3 5#3) = true := by
  decide +kernel

/-- R79: 00111 101, 01000 000, 01000 111, 01001 010. -/
theorem test_decode_setq_push_pop :
    reads noMap [0x3D#8] (.setq 5#3) = true ∧
    reads noMap [0x40#8] (.push 0#3) = true ∧
    reads noMap [0x47#8] (.push 7#3) = true ∧
    reads noMap [0x4A#8] (.pop 2#3) = true := by
  decide +kernel

/-- R79: 11100 001, 11101 101 with the address high byte first. -/
theorem test_decode_ldi_sti :
    reads noMap [0xE1#8, 0xFB#8] (.ldi 1#3 0xFB#8) = true ∧
    reads noMap [0xED#8, 0x01#8, 0xFF#8] (.sti 5#3 0x01FF#16) = true := by
  decide +kernel

/-- R79: the five unused bytes of S5. -/
theorem test_decode_given_unused :
    reads noMap [0x06#8] (.unused 0x06#8) = true ∧
    reads noMap [0x07#8] (.unused 0x07#8) = true ∧
    reads noMap [0x1C#8] (.unused 0x1C#8) = true ∧
    reads noMap [0x1D#8] (.unused 0x1D#8) = true ∧
    reads noMap [0x1E#8] (.unused 0x1E#8) = true := by
  decide +kernel

/-- R72: `OPC + r` and an immediate byte, the family bases $08, $20, $30, $50, $58. -/
theorem test_decode_reg_imm :
    reads Config.sample [0x0A#8, 0x10#8] (.adi 2#3 0x10#8) = true ∧
    reads Config.sample [0x24#8, 0x11#8] (.subi 4#3 0x11#8) = true ∧
    reads Config.sample [0x36#8, 0x55#8] (.ani 6#3 0x55#8) = true ∧
    reads Config.sample [0x57#8, 0x00#8] (.ori 7#3 0x00#8) = true ∧
    reads Config.sample [0x58#8, 0xFF#8] (.xri 0#3 0xFF#8) = true := by
  decide +kernel

/-- R72, R73, R77: `OPC + r` and an address, the family bases $10, $28, $98, $A8. -/
theorem test_decode_reg_abs :
    reads Config.sample [0x13#8, 0x20#8, 0x00#8] (.adm 3#3 0x2000#16) = true ∧
    reads Config.sample [0x2D#8, 0x30#8, 0x01#8] (.subm 5#3 0x3001#16) = true ∧
    reads Config.sample [0x9B#8, 0x15#8, 0x02#8] (.ldm 3#3 0x1502#16) = true ∧
    reads Config.sample [0xAA#8, 0x03#8, 0x04#8] (.lbrq 2#3 0x0304#16) = true := by
  decide +kernel

/-- R72, R73: `OPC + r` alone, the family bases $60, $68, $70, $78, $88, $90, $A0. -/
theorem test_decode_reg_implied :
    reads Config.sample [0x61#8] (.inc 1#3) = true ∧
    reads Config.sample [0x6A#8] (.dec 2#3) = true ∧
    reads Config.sample [0x73#8] (.shl 3#3) = true ∧
    reads Config.sample [0x7C#8] (.shlc 4#3) = true ∧
    reads Config.sample [0x8D#8] (.shr 5#3) = true ∧
    reads Config.sample [0x96#8] (.shrc 6#3) = true ∧
    reads Config.sample [0xA7#8] (.resetq 7#3) = true := by
  decide +kernel

/-- R74: one byte and an operand byte 0XXX0YYY; EX with bits 7 and 3 set. -/
theorem test_decode_dual_mapped :
    reads Config.sample [0x81#8, 0x01#8] (.sub 0#3 1#3) = true ∧
    reads Config.sample [0x82#8, 0x12#8] (.andR 1#3 2#3) = true ∧
    reads Config.sample [0x83#8, 0x23#8] (.orR 2#3 3#3) = true ∧
    reads Config.sample [0x84#8, 0x34#8] (.xorR 3#3 4#3) = true ∧
    reads Config.sample [0x85#8, 0x45#8] (.cmp 4#3 5#3) = true ∧
    reads Config.sample [0x86#8, 0xDE#8] (.ex 5#3 6#3) = true := by
  decide +kernel

/-- R75: one byte and nothing, a mask, or an address. -/
theorem test_decode_fixed_mapped :
    reads Config.sample [0x19#8, 0x02#8, 0x0A#8] (.lbrc 0x020A#16) = true ∧
    reads Config.sample [0x1A#8, 0x02#8, 0x09#8] (.lbrz 0x0209#16) = true ∧
    reads Config.sample [0x02#8, 0x03#8, 0x00#8] (.call 0x0300#16) = true ∧
    reads Config.sample [0x03#8] (.ret) = true ∧
    reads Config.sample [0x04#8, 0x41#8] (.spsr 0x41#8) = true ∧
    reads Config.sample [0x05#8, 0x01#8] (.cpsr 0x01#8) = true := by
  decide +kernel

/-- R80: the sample tables give an unused slot 1 byte on NMOS and 2 on CMOS. -/
theorem test_decode_unused_by_length :
    reads Config.sample [0xF0#8] (.unused 0xF0#8) = true ∧
    reads { Config.sample with arch := .cmos } [0xF0#8, 0x01#8] (.unused 0xF0#8) = true := by
  decide +kernel

/-- A byte with no verdict, an unused slot with no length, and missing operand bytes are refused by name (R85, R102). -/
theorem test_decode_refusals :
    decode noMap [0x20#8] = .error (.unknownOpcode 0x20#8) ∧ decode noSlots [0xF0#8] = .error (.unusedLength 0xF0#8) ∧
    decode Config.sample [0xE0#8] = .error .truncated := by
  decide +kernel

/-- The encoder writes R74's ignored bits as 0, an address high byte first; with no map CALL has no byte. -/
theorem test_encode :
    encode Config.sample (.adr 7#3 5#3) = some [0x80#8, 0x75#8] ∧ encode Config.sample (.call 0x0300#16) = some [0x02#8, 0x03#8, 0x00#8] ∧
    encode noMap (.call 0x0300#16) = none := by
  decide +kernel

/-- The names of spec/opcode_table.json. -/
theorem test_slot_names :
    Mnemonic.push.name = "PUSH" ∧ Mnemonic.andR.name = "AND" ∧ Mnemonic.unused.name = "(unused)" := by
  decide +kernel

/-! ## The host's words -/

/-- The first byte is the word's lowest (spec/opcode_table.json's numbering); whatever the machine's open parameters are. -/
theorem test_table_word :
    decodeTableWord 8 0x00 = some .nop ∧ decodeTableWord 16 0x3580 = some (.adr 3#3 5#3) ∧
    decodeTableWord 24 0x100218 = some (.lbr 0x0210#16) ∧ decodeTableWord 8 0x1E = some (.unused 0x1E#8) ∧
    decodeTableWord 8 0xE1 = some (.ldi 1#3 0x00#8) := by
  decide +kernel

/-- The word placed where the next fetch reads runs as the first instruction after reset, whatever the open parameters are. -/
theorem test_first_step_after_reset :
    gives (step (State.reset.withFetchWord 16 0x5EE0)) (fun t => t.reg 0#3 == 0x5E#8 && t.pc == 0x0002#16 && t.cycles == 2) = true ∧
    gives (step (State.reset.withFetchWord 24 0x100218)) (fun t => t.pc == 0x0210#16) = true := by
  decide +kernel

/-! ## Single Steps (95_test_vectors.md section 2) -/

/-- V-EX1. -/
theorem test_step_nop :
    gives (step (start 0x0200#16 [0x00#8]))
      (fun t => t.pc == 0x0201#16 && t.lastPc == 0x0200#16 && t.cycles == 1 && t.sp == 0xFF#8 && t.psr == 0x00#8) = true := by
  decide +kernel

/-- V-EX2. -/
theorem test_step_halt :
    gives (step (start 0x0300#16 [0x01#8]))
      (fun t => t.pc == 0x0300#16 && t.lastPc == 0x0300#16 && t.cycles == 1) = true := by
  decide +kernel

/-- V-EX5. -/
theorem test_step_unused_given :
    gives (step ({ start 0x1000#16 [0x1E#8] with cycles := 3 }))
      (fun t => t.pc == 0x1001#16 && t.cycles == 4 && t.psr == 0x00#8) = true := by
  decide +kernel

/-- R106: the sample CMOS slot is 2 bytes and 2 cycles. -/
theorem test_step_unused_skips :
    gives (step (setup { Config.sample with arch := .cmos } (start 0x1000#16 [0xF0#8, 0x01#8])))
      (fun t => t.pc == 0x1002#16 && t.cycles == 2) = true := by
  decide +kernel

/-- V-EX9. -/
theorem test_step_top_in_range :
    gives (step (start 0xFFFE#16 [0x00#8]))
      (fun t => t.pc == 0xFFFF#16 && t.cycles == 1) = true := by
  decide +kernel

/-- V-EX11. -/
theorem test_step_wrap_operand :
    gives (step (setup keepWrap (start 0xFFFF#16 [0xE0#8, 0x77#8])))
      (fun t => t.reg 0#3 == 0x77#8 && t.pc == 0x0001#16) = true := by
  decide +kernel

/-- V-AL2, V-AL5. -/
theorem test_step_adr_wraps :
    gives (step ((({ start 0x0200#16 [0x80#8, 0x01#8] with flags := flagsOf 0x41#8 }).setReg 0#3 0x80#8).setReg 1#3 0x80#8))
      (fun t => t.reg 0#3 == 0x00#8 && t.psr == 0x43#8 && t.cycles == 3) = true := by
  decide +kernel

/-- V-AL3. -/
theorem test_step_adr_same :
    gives (step ((start 0x0200#16 [0x80#8, 0x22#8]).setReg 2#3 0x40#8))
      (fun t => t.reg 2#3 == 0x80#8 && t.psr == 0x80#8) = true := by
  decide +kernel

/-- V-AL6. -/
theorem test_step_adi :
    gives (step ((start 0x0200#16 [0x0A#8, 0x10#8]).setReg 2#3 0xF0#8))
      (fun t => t.reg 2#3 == 0x00#8 && t.psr == 0x02#8 && t.pc == 0x0202#16) = true := by
  decide +kernel

/-- V-AL8. -/
theorem test_step_adm :
    gives (step (((start 0x0200#16 [0x13#8, 0x20#8, 0x00#8]).setReg 3#3 0x7F#8).write 0x2000#16 0x01#8))
      (fun t => t.reg 3#3 == 0x80#8 && t.psr == 0x80#8 && t.pc == 0x0203#16) = true := by
  decide +kernel

/-- V-AL10. -/
theorem test_step_sub_borrow :
    gives (step ((({ start 0x0200#16 [0x81#8, 0x01#8] with flags := flagsOf 0x01#8 }).setReg 0#3 0x05#8).setReg 1#3 0x07#8))
      (fun t => t.reg 0#3 == 0xFE#8 && t.reg 1#3 == 0x07#8 && t.psr == 0x80#8) = true := by
  decide +kernel

/-- V-AL11. -/
theorem test_step_sub_no_borrow :
    gives (step (((start 0x0200#16 [0x81#8, 0x01#8]).setReg 0#3 0x07#8).setReg 1#3 0x05#8))
      (fun t => t.reg 0#3 == 0x02#8 && t.psr == 0x01#8) = true := by
  decide +kernel

/-- V-AL13. -/
theorem test_step_subi_equal :
    gives (step ((start 0x0200#16 [0x24#8, 0x10#8]).setReg 4#3 0x10#8))
      (fun t => t.reg 4#3 == 0x00#8 && t.psr == 0x03#8) = true := by
  decide +kernel

/-- V-AL15. -/
theorem test_step_subi_unsigned :
    gives (step ((start 0x0200#16 [0x20#8, 0x00#8]).setReg 0#3 0x80#8))
      (fun t => t.reg 0#3 == 0x80#8 && t.psr == 0x81#8) = true := by
  decide +kernel

/-- V-AL16. -/
theorem test_step_subm :
    gives (step (((start 0x0200#16 [0x2D#8, 0x30#8, 0x00#8]).setReg 5#3 0x00#8).write 0x3000#16 0x01#8))
      (fun t => t.reg 5#3 == 0xFF#8 && t.psr == 0x80#8) = true := by
  decide +kernel

/-- V-AL17. -/
theorem test_step_and :
    gives (step (((start 0x0200#16 [0x82#8, 0x01#8]).setReg 0#3 0xF0#8).setReg 1#3 0x3C#8))
      (fun t => t.reg 0#3 == 0x30#8 && t.reg 1#3 == 0x3C#8 && t.psr == 0x00#8) = true := by
  decide +kernel

/-- V-AL18. -/
theorem test_step_ani :
    gives (step ((start 0x0200#16 [0x36#8, 0x55#8]).setReg 6#3 0xAA#8))
      (fun t => t.reg 6#3 == 0x00#8 && t.psr == 0x02#8) = true := by
  decide +kernel

/-- V-AL19. -/
theorem test_step_or :
    gives (step (((start 0x0200#16 [0x83#8, 0x02#8]).setReg 0#3 0x80#8).setReg 2#3 0x01#8))
      (fun t => t.reg 0#3 == 0x81#8 && t.reg 2#3 == 0x01#8 && t.psr == 0x80#8) = true := by
  decide +kernel

/-- V-AL20. -/
theorem test_step_ori :
    gives (step (start 0x0200#16 [0x57#8, 0x00#8]))
      (fun t => t.reg 7#3 == 0x00#8 && t.psr == 0x02#8) = true := by
  decide +kernel

/-- V-AL21. -/
theorem test_step_xor :
    gives (step ((start 0x0200#16 [0x84#8, 0x11#8]).setReg 1#3 0xFF#8))
      (fun t => t.reg 1#3 == 0x00#8 && t.psr == 0x02#8) = true := by
  decide +kernel

/-- V-AL22. -/
theorem test_step_xri :
    gives (step ((start 0x0200#16 [0x58#8, 0xFF#8]).setReg 0#3 0x0F#8))
      (fun t => t.reg 0#3 == 0xF0#8 && t.psr == 0x80#8) = true := by
  decide +kernel

/-- V-AL23. -/
theorem test_step_inc :
    gives (step ((start 0x0200#16 [0x60#8]).setReg 0#3 0xFF#8))
      (fun t => t.reg 0#3 == 0x00#8 && t.psr == 0x02#8) = true := by
  decide +kernel

/-- V-AL25. -/
theorem test_step_dec :
    gives (step (({ start 0x0200#16 [0x68#8] with flags := flagsOf 0x01#8 }).setReg 0#3 0x00#8))
      (fun t => t.reg 0#3 == 0xFF#8 && t.psr == 0x81#8) = true := by
  decide +kernel

/-- V-AL27. -/
theorem test_step_shl :
    gives (step ((start 0x0200#16 [0x70#8]).setReg 0#3 0x81#8))
      (fun t => t.reg 0#3 == 0x02#8 && t.psr == 0x01#8) = true := by
  decide +kernel

/-- V-AL29. -/
theorem test_step_shl_clears_carry :
    gives (step (({ start 0x0200#16 [0x70#8] with flags := flagsOf 0x01#8 }).setReg 0#3 0x40#8))
      (fun t => t.reg 0#3 == 0x80#8 && t.psr == 0x80#8) = true := by
  decide +kernel

/-- V-AL30. -/
theorem test_step_shlc_keeps_carry :
    gives (step (({ start 0x0200#16 [0x78#8] with flags := flagsOf 0x01#8 }).setReg 0#3 0x81#8))
      (fun t => t.reg 0#3 == 0x03#8 && t.psr == 0x01#8) = true := by
  decide +kernel

/-- V-AL31. -/
theorem test_step_shlc_loses_bit :
    gives (step ((start 0x0200#16 [0x78#8]).setReg 0#3 0x80#8))
      (fun t => t.reg 0#3 == 0x00#8 && t.psr == 0x02#8) = true := by
  decide +kernel

/-- V-AL33. -/
theorem test_step_shr :
    gives (step ((start 0x0200#16 [0x88#8]).setReg 0#3 0xFF#8))
      (fun t => t.reg 0#3 == 0x7F#8 && t.psr == 0x01#8) = true := by
  decide +kernel

/-- V-AL34. -/
theorem test_step_shr_clears_carry :
    gives (step (({ start 0x0200#16 [0x88#8] with flags := flagsOf 0x01#8 }).setReg 0#3 0x02#8))
      (fun t => t.reg 0#3 == 0x01#8 && t.psr == 0x00#8) = true := by
  decide +kernel

/-- V-AL35. -/
theorem test_step_shrc :
    gives (step (({ start 0x0200#16 [0x90#8] with flags := flagsOf 0x01#8 }).setReg 0#3 0x01#8))
      (fun t => t.reg 0#3 == 0x80#8 && t.psr == 0x81#8) = true := by
  decide +kernel

/-- V-AL36. -/
theorem test_step_shrc_no_carry :
    gives (step ((start 0x0200#16 [0x90#8]).setReg 0#3 0x01#8))
      (fun t => t.reg 0#3 == 0x00#8 && t.psr == 0x02#8) = true := by
  decide +kernel

/-- V-AL37. -/
theorem test_step_cmp_equal :
    gives (step (((start 0x0200#16 [0x85#8, 0x01#8]).setReg 0#3 0x12#8).setReg 1#3 0x12#8))
      (fun t => t.reg 0#3 == 0x12#8 && t.psr == 0x01#8) = true := by
  decide +kernel

/-- V-AL41. -/
theorem test_step_ex :
    gives (step ((({ start 0x0200#16 [0x86#8, 0x01#8] with flags := flagsOf 0x02#8 }).setReg 0#3 0x01#8).setReg 1#3 0x02#8))
      (fun t => t.reg 0#3 == 0x02#8 && t.reg 1#3 == 0x01#8 && t.psr == 0x02#8) = true := by
  decide +kernel

/-- V-LS2. -/
theorem test_step_ldi :
    gives (step (({ start 0x0200#16 [0xE7#8, 0x00#8] with flags := flagsOf 0x80#8 }).setReg 7#3 0x09#8))
      (fun t => t.reg 7#3 == 0x00#8 && t.psr == 0x80#8 && t.pc == 0x0202#16 && t.cycles == 2) = true := by
  decide +kernel

/-- V-LS3. -/
theorem test_step_ldm :
    gives (step ((start 0x0200#16 [0x9B#8, 0x15#8, 0x00#8]).write 0x1500#16 0x5E#8))
      (fun t => t.reg 3#3 == 0x5E#8 && t.psr == 0x00#8) = true := by
  decide +kernel

/-- V-LS4. -/
theorem test_step_ldm_never_written :
    gives (step ((start 0x0200#16 [0x9A#8, 0x70#8, 0x00#8]).setReg 2#3 0xAB#8))
      (fun t => t.reg 2#3 == 0x00#8 && t.psr == 0x00#8) = true := by
  decide +kernel

/-- V-LS5. -/
theorem test_step_sti :
    gives (step ((start 0x1002#16 [0xE8#8, 0x15#8, 0x00#8]).setReg 0#3 0x5E#8))
      (fun t => t.pc == 0x1005#16 && t.cycles == 4 && t.read 0x1500#16 == 0x5E#8) = true := by
  decide +kernel

/-- V-LS8. -/
theorem test_step_sti_over_itself :
    gives (step ((start 0x0200#16 [0xE8#8, 0x02#8, 0x00#8]).setReg 0#3 0x3C#8))
      (fun t => t.pc == 0x0203#16 && t.read 0x0200#16 == 0x3C#8) = true := by
  decide +kernel

/-- V-CT1. -/
theorem test_step_lbr :
    gives (step ({ start 0x0206#16 [0x18#8, 0x02#8, 0x02#8] with flags := flagsOf 0xDF#8 }))
      (fun t => t.pc == 0x0202#16 && t.lastPc == 0x0206#16 && t.psr == 0xDF#8) = true := by
  decide +kernel

/-- V-CT3. -/
theorem test_step_lbrc_taken :
    gives (step ({ start 0x0204#16 [0x19#8, 0x02#8, 0x0A#8] with flags := flagsOf 0x01#8 }))
      (fun t => t.pc == 0x020A#16) = true := by
  decide +kernel

/-- V-CT4. -/
theorem test_step_lbrc_not_taken :
    gives (step ({ start 0x0204#16 [0x19#8, 0x02#8, 0x0A#8] with flags := flagsOf 0xDE#8 }))
      (fun t => t.pc == 0x0207#16) = true := by
  decide +kernel

/-- V-CT5. -/
theorem test_step_lbrz_taken :
    gives (step ({ start 0x0203#16 [0x1A#8, 0x02#8, 0x09#8] with flags := flagsOf 0x02#8 }))
      (fun t => t.pc == 0x0209#16) = true := by
  decide +kernel

/-- V-CT6. -/
theorem test_step_lbrz_not_taken :
    gives (step ({ start 0x0203#16 [0x1A#8, 0x02#8, 0x09#8] with flags := flagsOf 0xDD#8 }))
      (fun t => t.pc == 0x0206#16) = true := by
  decide +kernel

/-- V-CT7. -/
theorem test_step_lbrq_taken :
    gives (step ({ start 0x0200#16 [0xAA#8, 0x03#8, 0x00#8] with q := 0x04#8 }))
      (fun t => t.pc == 0x0300#16) = true := by
  decide +kernel

/-- V-CT8. -/
theorem test_step_lbrq_not_taken :
    gives (step ({ start 0x0200#16 [0xA9#8, 0x03#8, 0x00#8] with q := 0x04#8 }))
      (fun t => t.pc == 0x0203#16) = true := by
  decide +kernel

/-- V-CT9. -/
theorem test_step_setq :
    gives (step (start 0x0200#16 [0x3D#8]))
      (fun t => t.q == 0x20#8 && t.cycles == 1) = true := by
  decide +kernel

/-- V-CT11. -/
theorem test_step_resetq :
    gives (step ({ start 0x0200#16 [0xA7#8] with q := 0xFF#8 }))
      (fun t => t.q == 0x7F#8) = true := by
  decide +kernel

/-- V-CT13. -/
theorem test_step_push :
    gives (step ((start 0x0200#16 [0x40#8]).setReg 0#3 0x11#8))
      (fun t => t.sp == 0xFE#8 && t.psr == 0x00#8 && t.read 0x01FF#16 == 0x11#8) = true := by
  decide +kernel

/-- V-CT14. -/
theorem test_step_push_wraps :
    gives (step (({ start 0x0200#16 [0x43#8] with sp := 0x00#8 }).setReg 3#3 0x44#8))
      (fun t => t.sp == 0xFF#8 && t.read 0x0100#16 == 0x44#8) = true := by
  decide +kernel

/-- V-CT16. -/
theorem test_step_pop_wraps :
    gives (step (({ start 0x0200#16 [0x4F#8] with sp := 0xFF#8 }).write 0x0100#16 0x80#8))
      (fun t => t.sp == 0x00#8 && t.reg 7#3 == 0x80#8 && t.psr == 0x80#8) = true := by
  decide +kernel

/-- V-CT17. -/
theorem test_step_pop_zero :
    gives (step (({ start 0x0200#16 [0x49#8] with sp := 0xFE#8 }).setReg 1#3 0x05#8))
      (fun t => t.sp == 0xFF#8 && t.reg 1#3 == 0x00#8 && t.psr == 0x02#8) = true := by
  decide +kernel

/-- V-CT18. -/
theorem test_step_call :
    gives (step (start 0x0200#16 [0x02#8, 0x03#8, 0x00#8]))
      (fun t => t.sp == 0xFD#8 && t.pc == 0x0300#16 && t.read 0x01FF#16 == 0x02#8 && t.read 0x01FE#16 == 0x03#8) = true := by
  decide +kernel

/-- V-CT19. -/
theorem test_step_call_wraps :
    gives (step ({ start 0x12FD#16 [0x02#8, 0x20#8, 0x00#8] with sp := 0x00#8 }))
      (fun t => t.sp == 0xFE#8 && t.pc == 0x2000#16 && t.read 0x0100#16 == 0x13#8 && t.read 0x01FF#16 == 0x00#8) = true := by
  decide +kernel

/-- V-CT20. -/
theorem test_step_ret :
    gives (step ((({ start 0x0300#16 [0x03#8] with sp := 0xFD#8, flags := flagsOf 0x82#8 }).write 0x01FE#16 0x03#8).write 0x01FF#16 0x02#8))
      (fun t => t.sp == 0xFF#8 && t.pc == 0x0203#16 && t.psr == 0x82#8) = true := by
  decide +kernel

/-- V-CT21. -/
theorem test_step_ret_wraps :
    gives (step ((({ start 0x0300#16 [0x03#8] with sp := 0xFE#8 }).write 0x01FF#16 0x34#8).write 0x0100#16 0x12#8))
      (fun t => t.sp == 0x00#8 && t.pc == 0x1234#16) = true := by
  decide +kernel

/-- V-CT22. -/
theorem test_step_spsr :
    gives (step (start 0x0200#16 [0x04#8, 0x41#8]))
      (fun t => t.psr == 0x41#8 && t.pc == 0x0202#16) = true := by
  decide +kernel

/-- V-CT24. -/
theorem test_step_spsr_reserved_bit :
    gives (step (start 0x0200#16 [0x04#8, 0x20#8]))
      (fun t => t.psr == 0x00#8) = true := by
  decide +kernel

/-- V-CT25. -/
theorem test_step_cpsr :
    gives (step ({ start 0x0200#16 [0x05#8, 0x01#8] with flags := flagsOf 0x03#8 }))
      (fun t => t.psr == 0x02#8) = true := by
  decide +kernel

/-- V-CT26. -/
theorem test_step_cpsr_all :
    gives (step ({ start 0x0200#16 [0x05#8, 0xDF#8] with flags := flagsOf 0xDF#8 }))
      (fun t => t.psr == 0x00#8) = true := by
  decide +kernel

/-- V-AL38: `Clear`, then `Keep`. -/
theorem test_step_cmp_unequal :
    gives (step ((({ start 0x0200#16 [0x85#8, 0x01#8] with flags := flagsOf 0x01#8 }).setReg 0#3 0x12#8).setReg 1#3 0x13#8)) (fun t => t.psr == 0x00#8) = true ∧
    gives (step (setup keepWrap ((({ start 0x0200#16 [0x85#8, 0x01#8] with flags := flagsOf 0x01#8 }).setReg 0#3 0x12#8).setReg 1#3 0x13#8))) (fun t => t.psr == 0x01#8) = true := by
  decide +kernel

/-- V-EX12. -/
theorem test_step_top_faults :
    stops (step (start 0xFFFD#16 [0x18#8, 0x12#8, 0x34#8])) (fun f => f == .addressOverflow) (fun _ => false) = true ∧
    gives (step (setup keepWrap (start 0xFFFD#16 [0x18#8, 0x12#8, 0x34#8]))) (fun t => t.pc == 0x1234#16) = true := by
  decide +kernel

/-- V-EX6, V-EX7; a refusal comes before a fault (R204). -/
theorem test_step_refusals :
    stops (step (setup noMap (start 0x0200#16 [0x20#8]))) (fun _ => false) (fun r => r == .unknownOpcode 0x20#8) = true ∧
    stops (step (setup noSlots (start 0xFFFF#16 [0xF0#8]))) (fun _ => false) (fun r => r == .unusedLength 0xF0#8) = true := by
  decide +kernel

/-- V-RM1. -/
theorem test_host_reset :
    let s := { start 0x1000#16 [0x00#8] with sp := 0x10#8, q := 0x0F#8, cycles := 9, flags := flagsOf 0x01#8 }
    let t := ((s.write 0xFFFC#16 0x02#8).write 0xFFFD#16 0x00#8).hostReset
    t.pc = 0x0200#16 ∧ t.sp = 0x10#8 ∧ t.q = 0x0F#8 ∧ t.cycles = 9 ∧ t.psr = 0x01#8 := by
  decide +kernel

/-- The canonical form: the value an unlisted address reads as removes the entry; keys rise. -/
theorem test_write_zero_unlists :
    Memory.write (Memory.write [] 0x0200#16 0x05#8) 0x0200#16 0x00#8 = [] ∧
    Memory.write (Memory.write [] 0xFFFF#16 0x05#8) 0x0200#16 0x06#8 = [(0x0200, 0x06#8), (0xFFFF, 0x05#8)] := by
  decide +kernel

/-! ## Witnesses: states and operands that meet the statements' hypotheses -/

/-- The instruction at PC, stepped from `s`, is one of the slot `mn`. -/
def hits (s : State) (mn : Mnemonic) : Bool :=
  match s.config.lookup (s.read s.pc) with
  | .ok d    => d.name == mn && gives (step s) fun _ => true
  | .error _ => false

theorem of_hits {s : State} {mn : Mnemonic} (h : hits s mn = true) :
    ∃ t d, step s = .next t ∧ s.config.lookup (s.read s.pc) = .ok d ∧ d.name = mn := by
  unfold hits at h
  cases hl : s.config.lookup (s.read s.pc) with
  | error e => rw [hl] at h; cases h
  | ok d =>
    rw [hl] at h
    obtain ⟨h1, h2⟩ := Bool.and_eq_true_iff.1 h
    obtain ⟨t, ht, -⟩ := next_of_gives h2
    exact ⟨t, d, ht, rfl, of_decide_eq_true h1⟩

/-- One instruction of every slot. -/
def oneOfEach : List Instr :=
  [.nop, .halt, .adr 0#3 1#3, .adi 2#3 1#8, .adm 3#3 0x2000#16, .sub 4#3 5#3, .subi 6#3 7#8, .subm 7#3 0x2000#16,
   .andR 0#3 1#3, .ani 0#3 1#8, .orR 2#3 3#3, .ori 2#3 3#8, .xorR 4#3 5#3, .xri 4#3 5#8, .inc 6#3, .dec 7#3, .shl 0#3,
   .shlc 1#3, .shr 2#3, .shrc 3#3, .cmp 4#3 5#3, .ex 6#3 7#3, .ldi 7#3 0xFF#8, .ldm 0#3 0xFFFF#16, .sti 7#3 0x0000#16,
   .lbr 0xFFFF#16, .lbrc 1#16, .lbrz 2#16, .lbrq 7#3 3#16, .setq 7#3, .resetq 0#3, .push 7#3, .pop 7#3, .call 0x0300#16,
   .ret, .spsr 0xFF#8, .cpsr 0xFF#8, .unused 0xF0#8]

/-- The start state with an instruction's own encoding at $0200. -/
def at0200 (i : Instr) : State := start 0x0200#16 ((encode Config.sample i).getD [])

/-- For PcAndCyclesOfEveryStep, WritersOfSpAndQ, WritersOfFlags, WritersOfMemoryAndRegisters: for every slot, hence for each
clause, a state whose Step is taken there. Their premise on `a` only names the two operand bytes. -/
theorem witness_every_slot_steps :
    oneOfEach.map Instr.mnemonic = [.nop, .halt, .adr, .adi, .adm, .sub, .subi, .subm, .andR, .ani, .orR, .ori, .xorR, .xri,
      .inc, .dec, .shl, .shlc, .shr, .shrc, .cmp, .ex, .ldi, .ldm, .sti, .lbr, .lbrc, .lbrz, .lbrq, .setq, .resetq, .push,
      .pop, .call, .ret, .spsr, .cpsr, .unused] ∧
    ∀ i ∈ oneOfEach, ∃ t d, step (at0200 i) = .next t ∧
      (at0200 i).config.lookup ((at0200 i).read (at0200 i).pc) = .ok d ∧ d.name = i.mnemonic := by
  refine ⟨by decide, fun i hi => of_hits ?_⟩
  have h : (oneOfEach.all fun i => hits (at0200 i) i.mnemonic) = true := by decide +kernel
  exact List.all_eq_true.1 h i hi

theorem witness_operand_address :
    (0xFFFF#16).toNat = ((at0200 (.lbr 0xFFFF#16)).byteAt 1).toNat * 256 + ((at0200 (.lbr 0xFFFF#16)).byteAt 2).toNat := by
  decide +kernel

/-- For StepKeepsInvariant, ConfigurationNeverChanges (a Step), CountersHaveNoEffect and StorageFlagsHaveNoEffect (a next
state). -/
theorem witness_invariant_step : (at0200 (.sti 7 0x0000#16)).Inv ∧ ∃ t, step (at0200 (.sti 7 0x0000#16)) = .next t :=
  ⟨⟨by decide +kernel, by decide +kernel⟩,
    (next_of_gives (p := fun _ => true) (by decide +kernel)).imp fun _ h => h.1⟩

/-- For StorageFlagsHaveNoEffect and CountersHaveNoEffect (a fault, a refusal), StepVerdicts (each verdict occurs). -/
theorem witness_stops :
    step (start 0xFFFF#16 [0x00#8]) = .fault .addressOverflow ∧
    step (setup noMap (start 0x0200#16 [0x20#8])) = .refused (.unknownOpcode 0x20#8) ∧
    step (setup noSlots (start 0x0200#16 [0xF0#8])) = .refused (.unusedLength 0xF0#8) := by
  have stop : ∀ {o : Host.Outcome State Fault Refusal} {f r}, stops o f r = true →
      (∃ x, o = .fault x ∧ f x = true) ∨ ∃ x, o = .refused x ∧ r x = true := by
    intro o f r h
    cases o with
    | next t => cases h
    | fault x => exact .inl ⟨x, rfl, h⟩
    | refused x => exact .inr ⟨x, rfl, h⟩
  refine ⟨?_, ?_, ?_⟩
  · obtain ⟨x, h, -⟩ | ⟨x, -, h⟩ := stop (o := step (start 0xFFFF#16 [0x00#8])) (f := fun _ => true) (r := fun _ => false)
      (by decide +kernel)
    · rw [h]
    · cases h
  · obtain ⟨x, -, h⟩ | ⟨x, h, h'⟩ := stop (o := step (setup noMap (start 0x0200#16 [0x20#8]))) (f := fun _ => false)
      (r := fun r => r == .unknownOpcode 0x20#8) (by decide +kernel)
    · cases h
    · rw [h, of_decide_eq_true h']
  · obtain ⟨x, -, h⟩ | ⟨x, h, h'⟩ := stop (o := step (setup noSlots (start 0x0200#16 [0xF0#8]))) (f := fun _ => false)
      (r := fun r => r == .unusedLength 0xF0#8) (by decide +kernel)
    · cases h
    · rw [h, of_decide_eq_true h']

/-- For ConfigurationNeverChanges (a load), LoadProgramPlacesBytes, ByteSequencesInOrder: a sequence that ends at $FFFF,
its last byte, and one byte below it. -/
theorem witness_sequence_to_the_top :
    (0xFFFE#16).toNat + [0x12#8, 0x34#8].length ≤ 65536 ∧ 1 < [0x12#8, 0x34#8].length ∧
    (0xFFFD#16).toNat < (0xFFFE#16).toNat ∧
    ∃ t, (at0200 .nop).loadProgram 0xFFFE#16 [0x12#8, 0x34#8] = .next t :=
  ⟨by decide, by decide, by decide, (next_of_gives (p := fun _ => true) (by decide +kernel)).imp fun _ h => h.1⟩

/-- For MemoryFormIsCanonical: a memory in canonical form, with its own reads. -/
theorem witness_canonical :
    Memory.wf [(0x0000, 0x01#8), (0xFFFF, 0xFF#8)] = true ∧
    ∀ a : Addr, Memory.read [(0x0000, 0x01#8), (0xFFFF, 0xFF#8)] a = Memory.read [(0x0000, 0x01#8), (0xFFFF, 0xFF#8)] a :=
  ⟨by decide, fun _ => rfl⟩

/-- For LoadAddressIsBigEndian: the highest address below $FFFF, and both values of `ADDR_WRAP`. -/
theorem witness_load_address :
    (0xFFFE#16 : Addr) ≠ 0xFFFF#16 ∧ (at0200 .nop).config.addrWrap = .fault ∧
    (setup keepWrap (at0200 .nop)).config.addrWrap = .wrap := by decide +kernel

/-- For StackAddressInPageOne. -/
theorem witness_stack_address : stackAddr 0xFF#8 = stackAddr 0xFF#8 := rfl

/-- For AssignedSlots, SeventyTwoUnusedSlots, FamiliesAvoidGivenBlocks, EverySlotHasADescriptor (a bound and an unused
byte), DecodeOfEncode (a mapped instruction and an unused slot). -/
theorem witness_configuration :
    Config.sample.opcodeMap = some OpcodeMap.sample ∧ Config.sample.admitted = true ∧ Config.sample.complete = true ∧
    OpcodeMap.sample.admitted = true ∧ .family OpcodeMap.sample.adi ∈ OpcodeMap.sample.patterns ∧
    Config.sample.isUnused 0x00#8 = false ∧ Config.sample.isUnused 0xFF#8 = true ∧
    Instr.wellFormed Config.sample (.call 0xFFFF#16) = true ∧ Instr.wellFormed Config.sample (.unused 0xFF#8) = true :=
  ⟨rfl, Config.sample_admitted_complete.1, Config.sample_admitted_complete.2, Config.sample_admitted_complete.1,
    by decide, by decide +kernel, by decide +kernel, by decide +kernel, by decide +kernel⟩

/-- For EncodeOfDecode: an instruction of its clause on equal bytes, and one of its clause on DUAL operands. -/
theorem witness_decode :
    decode Config.sample [0xE1#8, 0xFB#8, 0x99#8] = .ok (.ldi 1#3 0xFB#8, [0x99#8]) ∧
    Instr.mnemonic (.ldi 1#3 0xFB#8) ∉ [.adr, .sub, .andR, .orR, .xorR, .cmp, .ex, .unused] ∧
    decode Config.sample [0x80#8, 0x89#8] = .ok (.adr 0#3 1#3, []) ∧
    Instr.mnemonic (.adr 0#3 1#3) ∈ [.adr, .sub, .andR, .orR, .xorR, .cmp, .ex] :=
  ⟨by decide +kernel, by decide, by decide +kernel, by decide⟩

/-- For StepRunsTheDecodedInstruction: the last address a three-byte instruction may start at. -/
theorem witness_step_runs :
    let s := start 0xFFFC#16 [0x18#8, 0x12#8, 0x34#8]
    decode s.config (s.mem.readBytes s.pc 3) = .ok (.lbr 0x1234#16, []) ∧
    s.config.lookup (s.read s.pc) = .ok ⟨.lbr, .abs, 0x18#8, 3, s.config.cycAt 0x18#8⟩ ∧ s.Fits 3 ∧
    ∃ t, exec (.lbr 0x1234#16) { s with lastPc := s.pc, pc := s.pc + BitVec.ofNat 16 3 } = .next t :=
  ⟨rfl, rfl, .inl (by decide +kernel), _, rfl⟩

/-- For RefusalsComeFromMissingConfiguration: each clause, the third at the last PC below $FFFD. -/
theorem witness_missing_configuration :
    (setup noMap (start 0x0200#16 [0x20#8])).config.opcodeMap = none ∧
    findRow ((setup noMap (start 0x0200#16 [0x20#8])).read (setup noMap (start 0x0200#16 [0x20#8])).pc) givenRows = none ∧
    (start 0xFFFC#16 [0x00#8]).config.complete = true ∧ (start 0xFFFC#16 [0x00#8]).pc.toNat < 65533 :=
  ⟨rfl, by decide +kernel, Config.sample_admitted_complete.2, by decide⟩

/-- For HaltedStateStays: a halted state, a Step from it, and a run that has ended. -/
theorem witness_halted :
    (start 0xFFFE#16 [0x01#8]).Halted ∧ ∃ t, Runs 1 (start 0xFFFE#16 [0x01#8]) t ∧ (start 0xFFFE#16 [0x01#8]).Ended 1 t := by
  have hh : (start 0xFFFE#16 [0x01#8]).Halted := ⟨by decide +kernel, by decide⟩
  obtain ⟨t, h, hp⟩ := next_of_gives (o := step (start 0xFFFE#16 [0x01#8]))
    (p := fun t => t.read t.pc == 0x01#8 && t.pc == 0xFFFE#16) (by decide +kernel)
  obtain ⟨h1, h2⟩ := Bool.and_eq_true_iff.1 hp
  have hpc : t.pc = 0xFFFE#16 := of_decide_eq_true h2
  exact ⟨hh, t, .succ h (.zero t), ⟨of_decide_eq_true h1, by rw [hpc]; decide⟩,
    0, _, rfl, .zero _, h, hh.1, hpc.symm⟩

/-- CALL $01FE at $01FE with SP $FF. -/
def callOverItself : State := start 0x01FE#16 [0x02#8, 0x01#8, 0xFE#8]

/-- R226: CALL may push $01 over its own opcode. The state after it is halted and its LastPC is PC, yet the run has not
ended, because its last Step executed no HALT. -/
theorem test_call_over_itself_has_not_ended :
    ∃ t, step callOverItself = .next t ∧ t.Halted ∧ t.lastPc = t.pc ∧ ¬ callOverItself.Ended 1 t := by
  obtain ⟨t, h, hp⟩ := next_of_gives (o := step callOverItself)
    (p := fun t => t.read t.pc == 0x01#8 && (decide (t.pc ≠ 0xFFFF#16) && t.lastPc == t.pc)) (by decide +kernel)
  obtain ⟨h1, h2⟩ := Bool.and_eq_true_iff.1 hp
  obtain ⟨h2, h3⟩ := Bool.and_eq_true_iff.1 h2
  refine ⟨t, h, ⟨of_decide_eq_true h1, of_decide_eq_true h2⟩, of_decide_eq_true h3, ?_⟩
  rintro ⟨-, m, p, hm, hr, -, ho, -⟩
  obtain rfl : m = 0 := by omega
  cases hr
  exact absurd ho (by decide +kernel)

/-- For AdrStep: an operand byte with bits 7 and 3 set, at the last address it fits. -/
theorem witness_adr_step :
    let s := start 0xFFFD#16 [0x80#8, 0xFA#8]
    s.byteAt 0 = 0x80#8 ∧ s.Fits 2 ∧ (7#3).toNat = (s.byteAt 1).toNat / 16 % 8 ∧ (2#3).toNat = (s.byteAt 1).toNat % 8 :=
  ⟨by decide +kernel, .inl (by decide +kernel), by decide +kernel, by decide +kernel⟩

/-- For LdiStep. -/
theorem witness_ldi_step :
    let s := start 0xFFFD#16 [0xE7#8, 0xFF#8]
    (s.byteAt 0).toNat = 0xE0 + (7#3).toNat ∧ s.Fits 2 := ⟨by decide +kernel, .inl (by decide +kernel)⟩

/-- For StiStep: a store to the byte the next Step fetches, where addresses wrap. -/
theorem witness_sti_step :
    let s := setup keepWrap (start 0xFFFD#16 [0xEF#8, 0x00#8, 0x00#8])
    (s.byteAt 0).toNat = 0xE8 + (7#3).toNat ∧ s.Fits 3 ∧
    (0x0000#16).toNat = (s.byteAt 1).toNat * 256 + (s.byteAt 2).toNat ∧ 0x0000#16 = s.pc + 3#16 :=
  ⟨by decide +kernel, .inr (by decide +kernel), by decide +kernel, by decide +kernel⟩

/-- For PopStep. -/
theorem witness_pop_step :
    let s := start 0xFFFE#16 [0x4F#8]
    (s.byteAt 0).toNat = 0x48 + (7#3).toNat ∧ s.Fits 1 := ⟨by decide +kernel, .inl (by decide +kernel)⟩

/-- For UnusedSlotStep: each clause. -/
theorem witness_unused_step :
    let s := start 0xFFFE#16 [0x06#8]
    let t := start 0xFFFE#16 [0xF0#8]
    (s.byteAt 0 ∈ [0x06#8, 0x07#8, 0x1C#8, 0x1D#8, 0x1E#8] ∧ s.Fits 1) ∧
    (t.config.isUnused (t.byteAt 0) = true ∧ t.byteAt 0 ∉ [0x06#8, 0x07#8, 0x1C#8, 0x1D#8, 0x1E#8] ∧
      t.config.unusedAt (t.byteAt 0) = some ⟨.imp, 1⟩ ∧ t.Fits (Mode.imp.length)) ∧
    (setup noSlots t).config.isUnused ((setup noSlots t).byteAt 0) = true ∧
    (setup noSlots t).config.unusedAt ((setup noSlots t).byteAt 0) = none :=
  ⟨⟨by decide +kernel, .inl (by decide +kernel)⟩,
    ⟨by decide +kernel, by decide +kernel, by decide +kernel, .inl (by decide +kernel)⟩, by decide +kernel, by decide +kernel⟩

/-- For CompareResult: equal registers, and unequal ones under each value of `CMP_UNEQUAL`. -/
theorem witness_compare :
    let s := (at0200 .nop).setReg 7#3 0xFF#8
    s.reg 0#3 = s.reg 1#3 ∧ s.reg 0#3 ≠ s.reg 7#3 ∧ s.config.cmpUnequal = .clear ∧
    (setup keepWrap s).reg 0#3 ≠ (setup keepWrap s).reg 7#3 ∧ (setup keepWrap s).config.cmpUnequal = .keep := by
  decide +kernel

/-- A state at a CALL's handler with SP $00. -/
def beforeCall : State := (at0200 .nop).setSp 0x00#8

/-- For CallThenReturn: that CALL, and a later state with another PC and Q. -/
theorem witness_call_then_return :
    ∃ t u : State, exec (.call 0x0300#16) beforeCall = .next t ∧ u.pc ≠ t.pc ∧ u.sp = t.sp ∧
      u.read (stackAddr beforeCall.sp) = t.read (stackAddr beforeCall.sp) ∧
      u.read (stackAddr (beforeCall.sp - 1#8)) = t.read (stackAddr (beforeCall.sp - 1#8)) := by
  obtain ⟨t, h, hp⟩ := next_of_gives (o := exec (.call 0x0300#16) beforeCall) (p := fun t => t.pc == 0x0300#16)
    (by decide +kernel)
  refine ⟨t, (t.setPc 0x0400#16).setQ 0xFF#8, h, ?_, rfl, rfl, rfl⟩
  rw [of_decide_eq_true hp]
  show (0x0400#16 : Addr) ≠ 0x0300#16
  decide

/-- For ShiftPairShiftsSixteenBits, and for ExchangeResult's clause on one register. -/
theorem witness_registers : (7#3 : Sel) ≠ 0#3 ∧ (7#3 : Sel) = 7#3 := by decide

end Sys2Proof.Tests
end

section
/-! # The state: who writes each part of it, and what no instruction reads (10_state.md)

The frame of every handler, one lemma per part of the state, and how a Step lifts it; then the two-state lemmas behind
non-interference: a fetch reads memory, PC and configuration only, and no handler reads I, D, B, V or Cycles. -/

namespace Sys2Proof

@[simp] theorem Mnemonic.mnemonic_instr (mn : Mnemonic) (ob : Byte) (op : List Byte) :
    (mn.instr ob op).mnemonic = mn := by
  cases mn <;> rfl

/-- What an instruction of the slot adds to SP, modulo 256 (R24). -/
def Mnemonic.spChange : Mnemonic → Byte
  | .push => -1#8
  | .pop  => 1#8
  | .call => -2#8
  | .ret  => 2#8
  | _     => 0#8

theorem Mnemonic.spChange_eq_zero {mn : Mnemonic} (h : mn ∉ [.push, .pop, .call, .ret]) : mn.spChange = 0#8 := by
  cases mn with
  | push | pop | call | ret => simp at h
  | _ => rfl

end Sys2Proof

namespace Sys2Proof.Machine

/-! ## The branch operation (R184) -/

@[simp] theorem State.branchIf_regs (s : State) (p : Bool) (a : Addr) : (s.branchIf p a).regs = s.regs := by
  cases p <;> rfl
@[simp] theorem State.branchIf_sp (s : State) (p : Bool) (a : Addr) : (s.branchIf p a).sp = s.sp := by
  cases p <;> rfl
@[simp] theorem State.branchIf_flags (s : State) (p : Bool) (a : Addr) : (s.branchIf p a).flags = s.flags := by
  cases p <;> rfl
@[simp] theorem State.branchIf_q (s : State) (p : Bool) (a : Addr) : (s.branchIf p a).q = s.q := by
  cases p <;> rfl
@[simp] theorem State.branchIf_mem (s : State) (p : Bool) (a : Addr) : (s.branchIf p a).mem = s.mem := by
  cases p <;> rfl

theorem State.branchIf_withStorageFlags (s : State) (p : Bool) (a : Addr) (i d b v : Bool) :
    (s.withStorageFlags i d b v).branchIf p a = (s.branchIf p a).withStorageFlags i d b v := by
  cases p <;> rfl

theorem State.branchIf_withCounters (s : State) (p : Bool) (a l : Addr) (n : Nat) :
    (s.withCounters l n).branchIf p a = (s.branchIf p a).withCounters l n := by
  cases p <;> rfl

/-! ## Registers and memory left alone -/

theorem State.reg_congr {s t : State} (h : t.regs = s.regs) (k : Sel) : t.reg k = s.reg k := by
  simp [State.reg, h]

theorem State.read_congr {s t : State} (h : t.mem = s.mem) (a : Addr) : t.read a = s.read a := by
  simp [State.read, h]

theorem sameRegsBut_setReg (s : State) (r : Sel) (v : Byte) : SameRegsBut [r] s (s.setReg r v) :=
  fun _ hk => State.reg_setReg_ne s v (List.ne_of_not_mem_cons hk)

theorem sameRegsBut_setResult (s : State) (r : Sel) (v : Byte) : SameRegsBut [r] s (s.setResult r v) :=
  sameRegsBut_setReg s r v

theorem sameRegsBut_setResultC (s : State) (r : Sel) (v : Byte) (c : Bool) :
    SameRegsBut [r] s (s.setResultC r v c) :=
  sameRegsBut_setReg s r v

/-! ## The frame of every handler -/

section Frame
variable {i : Instr} {s t : State}

/-- R24. -/
theorem exec_sp (h : exec i s = .next t) : t.sp = s.sp + i.mnemonic.spChange := by
  cases i with
  | push r => cases h; exact BitVec.sub_eq_add_neg ..
  | pop r => cases h; rfl
  | call a =>
    cases h
    show s.sp - 1#8 - 1#8 = s.sp + -2#8
    bv_omega
  | ret =>
    cases h
    show s.sp + 1#8 + 1#8 = s.sp + 2#8
    bv_omega
  | lbrc a | lbrz a | lbrq q a => cases h; simp [Instr.mnemonic, Mnemonic.spChange]
  | _ => cases h; exact (BitVec.add_zero _).symm

/-- R33. -/
theorem exec_q (h : exec i s = .next t) (hi : i.mnemonic ∉ [.setq, .resetq]) : t.q = s.q := by
  cases i with
  | setq q | resetq q => simp [Instr.mnemonic] at hi
  | lbrc a | lbrz a | lbrq q a => cases h; exact State.branchIf_q ..
  | _ => cases h; rfl

/-- R29. -/
theorem exec_carry (h : exec i s = .next t)
    (hi : i.mnemonic ∉ [.sub, .subi, .subm, .shl, .shr, .cmp, .spsr, .cpsr]) : t.flags.c = s.flags.c := by
  cases i with
  | sub x y | subi r imm | subm r a | shl r | shr r | cmp x y | spsr mask | cpsr mask => simp [Instr.mnemonic] at hi
  | lbrc a | lbrz a | lbrq q a => cases h; exact congrArg Flags.c (State.branchIf_flags ..)
  | _ => cases h; rfl

/-- R30. -/
theorem exec_zero_sign (h : exec i s = .next t)
    (hi : i.mnemonic ∉ [.adr, .adi, .adm, .sub, .subi, .subm, .andR, .ani, .orR, .ori, .xorR, .xri, .inc, .dec, .shl,
      .shlc, .shr, .shrc, .pop, .spsr, .cpsr]) : t.flags.z = s.flags.z ∧ t.flags.s = s.flags.s := by
  cases i with
  | nop | halt | cmp x y | ex x y | ldi r imm | ldm r a | sti r a | lbr a | setq q | resetq q | push r | call a | ret
  | unused ob => cases h; exact ⟨rfl, rfl⟩
  | lbrc a | lbrz a | lbrq q a => cases h; simp
  | _ => simp [Instr.mnemonic] at hi

/-- R31. -/
theorem exec_storageFlags (h : exec i s = .next t) (hi : i.mnemonic ∉ [.spsr, .cpsr]) :
    t.flags.v = s.flags.v ∧ t.flags.i = s.flags.i ∧ t.flags.d = s.flags.d ∧ t.flags.b = s.flags.b := by
  cases i with
  | spsr mask | cpsr mask => simp [Instr.mnemonic] at hi
  | lbrc a | lbrz a | lbrq q a => cases h; simp
  | _ => cases h; exact ⟨rfl, rfl, rfl, rfl⟩

/-- R59. -/
theorem exec_mem (h : exec i s = .next t) (hi : i.mnemonic ∉ [.sti, .push, .call]) : t.mem = s.mem := by
  cases i with
  | sti r a | push r | call a => simp [Instr.mnemonic] at hi
  | lbrc a | lbrz a | lbrq q a => cases h; exact State.branchIf_mem ..
  | _ => cases h; rfl

/-- R21: the instructions that name no destination register. -/
theorem exec_regs (h : exec i s = .next t)
    (hi : i.mnemonic ∈ [.nop, .halt, .cmp, .sti, .lbr, .lbrc, .lbrz, .lbrq, .setq, .resetq, .push, .call, .ret, .spsr,
      .cpsr, .unused]) : t.regs = s.regs := by
  cases i with
  | nop | halt | cmp x y | sti r a | lbr a | setq q | resetq q | push r | call a | ret | spsr mask | cpsr mask
  | unused ob => cases h; rfl
  | lbrc a | lbrz a | lbrq q a => cases h; exact State.branchIf_regs ..
  | _ => simp [Instr.mnemonic] at hi

/-- Every instruction but EX changes at most one general register: the destination of a result or of a load. -/
theorem exec_one_reg (h : exec i s = .next t) (hi : i.mnemonic ≠ .ex) : ∃ r, SameRegsBut [r] s t := by
  cases i with
  | ex x y => exact absurd rfl hi
  | adr r y | adi r imm | adm r a | andR r y | ani r imm | orR r y | ori r imm | xorR r y | xri r imm | inc r | dec r
  | shlc r | shrc r => cases h; exact ⟨r, sameRegsBut_setResult s r _⟩
  | pop r => cases h; exact ⟨r, sameRegsBut_setResult s.popByte r _⟩
  | sub r y | subi r imm | subm r a | shl r | shr r => cases h; exact ⟨r, sameRegsBut_setResultC s r _ _⟩
  | ldi r imm | ldm r a => cases h; exact ⟨r, sameRegsBut_setReg s r _⟩
  | _ => exact ⟨0#3, fun k _ => State.reg_congr (exec_regs h (by simp [Instr.mnemonic])) k⟩

end Frame

/-! ## A Step and its handler -/

/-- A Step at a slot runs the handler of one of the slot's instructions between the advance and the charge (R101). -/
theorem exists_handler_of_step {s t : State} {d : Descriptor} (h : step s = .next t)
    (hl : s.config.lookup (s.read s.pc) = .ok d) :
    ∃ i u, i.mnemonic = d.name ∧ exec i (s.advance d.length) = .next u ∧ t = u.charge d.cycles := by
  obtain ⟨d', u, hl', -, hu, ht⟩ := step_next.1 h
  obtain rfl : d' = d := Except.ok.inj (hl'.symm.trans hl)
  exact ⟨_, u, Mnemonic.mnemonic_instr .., hu, ht⟩

/-- A fetch reads nothing but memory, PC and the configuration (R101, R103). -/
theorem fetch_congr {s s' : State} (hm : s'.mem = s.mem) (hp : s'.pc = s.pc) (hc : s'.config = s.config) :
    fetch s' = fetch s := by
  simp [fetch, State.opcode, State.read, State.operandBytes, hm, hp, hc]

/-- A Step runs one handler between an advance and a charge, and from any state that fetches alike the same handler runs
between the same two. -/
theorem exists_handler_of_fetch_eq {s s' t : State} (hf : fetch s' = fetch s) (h : step s = .next t) :
    ∃ (i : Instr) (n c : Nat) (u : State), exec i (s.advance n) = .next u ∧ t = u.charge c ∧
      ∀ u', exec i (s'.advance n) = .next u' → step s' = .next (u'.charge c) := by
  obtain ⟨d, u, hl, hfit, hu, ht⟩ := step_next.1 h
  have hs : fetch s' = .next ⟨d.name.instr s.opcode (s.operandBytes d), d⟩ :=
    hf.trans (fetch_next.2 ⟨hl, hfit, rfl⟩)
  exact ⟨_, d.length, d.cycles, u, hu, ht, fun u' hu' => by simp [step, hs, hu']⟩

theorem step_fault_of_fetch_eq {s s' : State} {r : Fault} (hf : fetch s' = fetch s) (h : step s = .fault r) :
    step s' = .fault r :=
  step_fault.2 (hf.trans (step_fault.1 h))

theorem step_refused_of_fetch_eq {s s' : State} {r : Refusal} (hf : fetch s' = fetch s) (h : step s = .refused r) :
    step s' = .refused r :=
  step_refused.2 (hf.trans (step_refused.1 h))

/-! ## The storage flags (R31, R32) -/

/-- SPSR and CPSR set or clear the mask's flags whatever I, D, B and V are: where the mask keeps one of these, the
difference between the two states stays. -/
theorem State.assign_withStorageFlags (s : State) (mask : Byte) (x i d b v : Bool) :
    (s.withStorageFlags i d b v).setFlags ((s.withStorageFlags i d b v).flags.assign mask x) =
      (s.setFlags (s.flags.assign mask x)).withStorageFlags (if mask.getLsbD 2 then x else i)
        (if mask.getLsbD 3 then x else d) (if mask.getLsbD 4 then x else b) (if mask.getLsbD 6 then x else v) := rfl

/-- No handler reads I, D, B or V: from states that differ in them only it gives states that differ in them only. -/
theorem exec_withStorageFlags {j : Instr} {s t : State} (h : exec j s = .next t) (i d b v : Bool) :
    ∃ i' d' b' v', exec j (s.withStorageFlags i d b v) = .next (t.withStorageFlags i' d' b' v') := by
  cases j with
  | spsr mask | cpsr mask =>
    cases h
    exact ⟨_, _, _, _, congrArg Host.Outcome.next (State.assign_withStorageFlags ..)⟩
  | lbrc a | lbrz a | lbrq q a =>
    cases h
    exact ⟨i, d, b, v, congrArg Host.Outcome.next (State.branchIf_withStorageFlags ..)⟩
  | _ => cases h; exact ⟨i, d, b, v, rfl⟩

/-! ## LastPC and Cycles (R34, R35) -/

/-- No handler reads Cycles, and each keeps them and LastPC. -/
theorem exec_withCycles {i : Instr} {s t : State} (h : exec i s = .next t) (n : Nat) :
    exec i (s.withCounters s.lastPc n) = .next (t.withCounters t.lastPc n) := by
  rw [(exec_handlerFrame h).lastPc]
  cases i with
  | lbrc a | lbrz a | lbrq q a => cases h; exact congrArg Host.Outcome.next (State.branchIf_withCounters ..)
  | _ => cases h; rfl

/-! ## The packed status byte (R26, R27) -/

/-- One more flag below a packed value: every weight doubles and the flag weighs 1. -/
theorem toNat_append_ofBool {w : Nat} (x : BitVec w) (b : Bool) :
    (x ++ BitVec.ofBool b).toNat = x.toNat * 2 + b.toNat :=
  BitVec.toNat_concat x b

theorem Flags.toNat_pack (f : Flags) : f.pack.toNat = f.c.toNat + 2 * f.z.toNat + 4 * f.i.toNat + 8 * f.d.toNat +
    16 * f.b.toNat + 64 * f.v.toNat + 128 * f.s.toNat := by
  have bit5 : 0#1 = BitVec.ofBool false := rfl
  simp only [Flags.pack, bit5, toNat_append_ofBool, BitVec.toNat_ofBool, Bool.toNat_false]
  omega

theorem Flags.unpack_pack (f : Flags) : Flags.unpack f.pack = f := by
  have every : ∀ c z i d b v s : Bool, Flags.unpack (Flags.pack ⟨c, z, i, d, b, v, s⟩) = ⟨c, z, i, d, b, v, s⟩ := by
    decide
  exact every f.c f.z f.i f.d f.b f.v f.s

theorem Flags.pack_unpack : ∀ v : Byte, (Flags.unpack v).pack = v &&& 0xDF#8 := by
  decide

/-! ## The obligations -/

/-- Settles O9, by the value of the stack address. -/
theorem stackAddressInPageOne : Obligations.StackAddressInPageOne := by
  intro a b
  have ha := stackAddr_toNat a
  have hlt := a.isLt
  exact ⟨ha, by omega, by omega, stackAddr_inj.1⟩

/-- Settles O13. -/
theorem packedStatusView : Obligations.PackedStatusView :=
  ⟨Flags.toNat_pack, Flags.unpack_pack, Flags.pack_unpack⟩

/-- Settles O29: a Step changes SP by its slot's amount, and Q by SETQ and RESETQ only. -/
theorem writersOfSpAndQ : Obligations.WritersOfSpAndQ := by
  intro s t d h hl
  obtain ⟨i, u, hi, hu, rfl⟩ := exists_handler_of_step h hl
  have hsp : u.sp = s.sp + d.name.spChange := hi ▸ (exec_sp hu :)
  have hnat : u.sp.toNat = (s.sp.toNat + d.name.spChange.toNat) % 256 := by rw [hsp, BitVec.toNat_add]
  refine ⟨fun hn => ?_, fun hn => ?_, fun hn => ?_, fun hn => ?_, fun hn => ?_, fun hn => (exec_q hu (hi ▸ hn) :)⟩
  · simpa [Mnemonic.spChange_eq_zero hn] using hsp
  all_goals rw [hn] at hnat; exact hnat

/-- Settles O30, by the flags each handler leaves alone. -/
theorem writersOfFlags : Obligations.WritersOfFlags := by
  intro s t d h hl
  obtain ⟨i, u, hi, hu, rfl⟩ := exists_handler_of_step h hl
  rw [← hi]
  exact ⟨(exec_carry hu :), (exec_zero_sign hu :)⟩

/-- Settles O31, by the memory and the registers each handler leaves alone. -/
theorem writersOfMemoryAndRegisters : Obligations.WritersOfMemoryAndRegisters := by
  intro s t d h hl
  obtain ⟨i, u, hi, hu, rfl⟩ := exists_handler_of_step h hl
  rw [← hi]
  exact ⟨fun hn => State.read_congr (exec_mem hu hn :), fun hm k _ => State.reg_congr (exec_regs hu hm :) k,
    (exec_one_reg hu :)⟩

/-- Settles O32: states that differ in I, D, B and V only fetch alike, and no handler reads those flags. -/
theorem storageFlagsHaveNoEffect : Obligations.StorageFlagsHaveNoEffect := by
  constructor
  · intro s t d h hl hn
    obtain ⟨i, u, hi, hu, rfl⟩ := exists_handler_of_step h hl
    exact (exec_storageFlags hu (hi ▸ hn) :)
  · intro s i d b v
    have hf : fetch (s.withStorageFlags i d b v) = fetch s := fetch_congr rfl rfl rfl
    refine ⟨fun t h => ?_, fun _ => step_fault_of_fetch_eq hf, fun _ => step_refused_of_fetch_eq hf⟩
    obtain ⟨j, n, c, u, hu, rfl, hs⟩ := exists_handler_of_fetch_eq hf h
    obtain ⟨i', d', b', v', hu'⟩ := exec_withStorageFlags hu i d b v
    exact ⟨i', d', b', v', hs _ hu'⟩

/-- Settles O33: the advance overwrites LastPC before the handler runs, and no handler reads Cycles. -/
theorem countersHaveNoEffect : Obligations.CountersHaveNoEffect := by
  intro s l n
  have hf : fetch (s.withCounters l n) = fetch s := fetch_congr rfl rfl rfl
  refine ⟨fun t h => ?_, fun _ => step_fault_of_fetch_eq hf, fun _ => step_refused_of_fetch_eq hf⟩
  obtain ⟨i, k, c, u, hu, rfl, hs⟩ := exists_handler_of_fetch_eq hf h
  have hcycles : u.cycles = s.cycles := (exec_handlerFrame hu).cycles
  refine ⟨by simp [hcycles], ?_⟩
  rw [hs _ (exec_withCycles hu n)]
  simp [State.charge, State.withCounters, hcycles]

end Sys2Proof.Machine
end

section
/-! # Memory: one byte, a sequence of bytes, a word (20_memory.md)

Byte sequences are described at every address, modulo 65536: byte `k` of a sequence from `a` lies at `a + k`, and the
address `b` holds byte `b - a` of it. The bounds of R54 only turn these into statements about numbers. -/

namespace Sys2Proof

/-- R53: the high byte weighs 256. -/
theorem wordOf_toNat (hi lo : Byte) : (wordOf hi lo).toNat = hi.toNat * 256 + lo.toNat := by
  have hlo : lo.toNat < 2 ^ 8 := lo.isLt
  rw [wordOf, BitVec.toNat_append, ← Nat.shiftLeft_add_eq_or_of_lt hlo, Nat.shiftLeft_eq]

end Sys2Proof

namespace Sys2Proof.Machine

/-! ## Byte sequences (R54) -/

theorem Memory.readBytes_getElem? (m : Memory) (a : Addr) {n k : Nat} (h : k < n) :
    (m.readBytes a n)[k]? = some (m.read (a + BitVec.ofNat 16 k)) := by
  induction n generalizing a k with
  | zero => exact absurd h (Nat.not_lt_zero k)
  | succ n ih =>
    cases k with
    | zero => simp [Memory.readBytes]
    | succ k =>
      have hnext : a + 1#16 + BitVec.ofNat 16 k = a + BitVec.ofNat 16 (k + 1) := by bv_omega
      rw [Memory.readBytes, List.getElem?_cons_succ, ih (a + 1#16) (Nat.lt_of_succ_lt_succ h), hnext]

/-- A sequence no longer than memory stores no byte over another, so each address it reaches holds its own byte, and
every other address reads as before. -/
theorem Memory.read_writeBytes (m : Memory) (a b : Addr) (vs : List Byte) (h : vs.length ≤ 65536) :
    (m.writeBytes a vs).read b = vs.getD (b - a).toNat (m.read b) := by
  induction vs generalizing m a with
  | nil => rfl
  | cons v vs ih =>
    rw [List.length_cons] at h
    rw [Memory.writeBytes, ih (m.write a v) (a + 1#16) (by omega)]
    by_cases hb : b = a
    · subst hb
      have hlast : (b - (b + 1#16)).toNat = 65535 := by bv_omega
      have hbeyond : vs.length ≤ (b - (b + 1#16)).toNat := by omega
      rw [List.getD_eq_default _ _ hbeyond, BitVec.sub_self, Memory.read_write_same]
      rfl
    · have hindex : (b - a).toNat = (b - (a + 1#16)).toNat + 1 := by bv_omega
      rw [hindex, List.getD_cons_succ, Memory.read_write_ne m v hb]

/-- Within the address space the bytes lie at the numbers from `a` on. -/
theorem Memory.read_writeBytes_within (m : Memory) (a b : Addr) (vs : List Byte)
    (h : a.toNat + vs.length ≤ 65536) :
    (m.writeBytes a vs).read b =
      if a.toNat ≤ b.toNat ∧ b.toNat < a.toNat + vs.length then vs.getD (b.toNat - a.toNat) 0#8 else m.read b := by
  rw [Memory.read_writeBytes m a b vs (by omega)]
  split
  · next hin =>
    have hindex : (b - a).toNat = b.toNat - a.toNat := by bv_omega
    have hlt : b.toNat - a.toNat < vs.length := by omega
    rw [hindex, List.getD_eq_getElem _ _ hlt, List.getD_eq_getElem _ _ hlt]
  · next hout =>
    exact List.getD_eq_default _ _ (by bv_omega)

theorem State.storeBytes_within (s : State) {a : Addr} {vs : List Byte} (h : a.toNat + vs.length ≤ 65536) :
    s.storeBytes a vs = .next { s with mem := s.mem.writeBytes a vs } :=
  if_pos (.inl h)

/-! ## Words (R53) -/

theorem Memory.readWord_toNat (m : Memory) (a : Addr) :
    (m.readWord a).toNat = (m.read a).toNat * 256 + (m.read (a + 1#16)).toNat :=
  wordOf_toNat ..

theorem State.loadAddress_below_top (s : State) {a : Addr} (h : a ≠ 0xFFFF#16) :
    s.loadAddress a = .next (s.mem.readWord a) :=
  if_neg fun hc => h hc.1

theorem State.loadAddress_top_fault {s : State} (h : s.config.addrWrap = .fault) :
    s.loadAddress 0xFFFF#16 = .fault .addressOverflow :=
  if_pos ⟨rfl, h⟩

theorem State.loadAddress_of_wrap {s : State} (h : s.config.addrWrap = .wrap) (a : Addr) :
    s.loadAddress a = .next (s.mem.readWord a) :=
  if_neg fun hc => by simp [h] at hc

/-- Two bytes stored singly, the high one at the lower address, are read as one word (R53, R57). -/
theorem Memory.readWord_write_write (m : Memory) (a : Addr) (hi lo : Byte) :
    ((m.write a hi).write (a + 1#16) lo).readWord a = wordOf hi lo := by
  have hne : a ≠ a + 1#16 := by bv_omega
  rw [Memory.readWord, Memory.read_write_same, Memory.read_write_ne _ lo hne, Memory.read_write_same]

/-! ## The obligations -/

/-- Settles O7: the bytes of a sequence are at consecutive addresses, none stored over another. -/
theorem byteSequencesInOrder : Obligations.ByteSequencesInOrder := by
  refine ⟨Memory.length_readBytes, fun m a n k hk _ => ?_, fun s a vs h => ?_⟩
  · have haddr : a + BitVec.ofNat 16 k = BitVec.ofNat 16 (a.toNat + k) := by bv_omega
    rw [Memory.readBytes_getElem? m a hk, haddr]
  · exact ⟨_, s.storeBytes_within h, rfl, fun b => Memory.read_writeBytes_within s.mem a b vs h⟩

/-- Settles O5, by read after write. -/
theorem readReturnsLastStore : Obligations.ReadReturnsLastStore :=
  ⟨Memory.read_nil, fun s a b v => ⟨s.read_write a b v, rfl, rfl, rfl, rfl, rfl, rfl, rfl, rfl⟩⟩

/-- Settles O8, by the value of the word read and the cases of `ADDR_WRAP`. -/
theorem loadAddressIsBigEndian : Obligations.LoadAddressIsBigEndian := by
  refine ⟨fun s a ha => ?_, fun s a ha => ?_, fun _ h => State.loadAddress_top_fault h, fun s h => ?_⟩
  · exact ⟨_, s.loadAddress_below_top ha, s.mem.readWord_toNat a⟩
  · rw [State.loadAddress_below_top _ ha, State.write_mem, State.write_mem, Memory.readWord_write_write]
    rfl
  · exact ⟨_, State.loadAddress_of_wrap h _, s.mem.readWord_toNat 0xFFFF#16⟩

end Sys2Proof.Machine
end

section
/-! # The dispatch table: the bytes' descriptors and how many are unused (30_encoding.md)

Every row of R79 and R84 gives its bytes one descriptor, because the patterns of the rows are disjoint. A byte is unused
exactly when `identify` answers so, which holds in every configuration, with or without an admitted map. -/

namespace Sys2Proof

/-! ## Operand fields (R72–R77) -/

theorem selOf_toNat (ob : Byte) : (selOf ob).toNat = ob.toNat % 8 := by
  simp [selOf]

theorem dualX_toNat (v : Byte) : (dualX v).toNat = v.toNat / 16 % 8 := by
  simp [dualX, Nat.shiftRight_eq_div_pow]

theorem dualY_toNat (v : Byte) : (dualY v).toNat = v.toNat % 8 := by
  simp [dualY]

/-! ## Rows and their descriptors (R79, R84) -/

theorem givenRows_pairwise : (givenRows.map Prod.fst).Pairwise fun p q => p.disjoint q = true := by
  decide

theorem findRow_given_eq_unused : ∀ ob : Byte, findRow ob givenRows = some .unused ↔ isGivenUnused ob = true := by
  decide

/-- A pattern the map assigns shares no byte with a given one (R84 (c)). -/
theorem OpcodeMap.given_disjoint {m : OpcodeMap} (h : m.admitted = true) {p q : Pattern} (hp : p ∈ givenPatterns)
    (hq : q ∈ m.patterns) : p.disjoint q = true :=
  (List.pairwise_append.1 (m.admitted_iff.1 h)).2.2 p hp q hq

/-- No row of a map is an unused slot, and R83 gives the cycles of none. -/
theorem OpcodeMap.rows_not_given (m : OpcodeMap) : ∀ row ∈ m.rows, row.2 ≠ .unused ∧ row.2.givenCycles = none := by
  simp [OpcodeMap.rows, Mnemonic.givenCycles]

/-- The bytes of a given row have the descriptor of its instruction in every configuration (R79, R83). -/
theorem Config.lookup_given (c : Config) {p : Pattern} {mn : Mnemonic} (hrow : (p, mn) ∈ givenRows)
    (hu : mn ≠ .unused) (k : Sel) : c.lookup (p.byte k) = .ok (c.definedDescriptor mn (p.byte k)) :=
  Config.lookup_defined (Config.identify_given (findRow_of_mem givenRows_pairwise hrow (p.hits_byte k))) hu

/-- The five given unused bytes are slots of one byte and one cycle in every configuration (R80). -/
theorem Config.lookup_given_unused (c : Config) {ob : Byte} (h : isGivenUnused ob = true) :
    c.lookup ob = .ok ⟨.unused, .imp, ob, 1, 1⟩ :=
  Config.lookup_unused (Config.identify_given ((findRow_given_eq_unused ob).2 h)) (if_pos h)

/-- The bytes of a map's row have the descriptor of its instruction, with the cycles `CYC(b)` (R83, R84). -/
theorem Config.lookup_assigned {c : Config} {m : OpcodeMap} (hm : c.opcodeMap = some m) (hc : c.admitted = true)
    {p : Pattern} {mn : Mnemonic} (hrow : (p, mn) ∈ m.rows) (k : Sel) :
    c.lookup (p.byte k) = .ok ⟨mn, mn.mode, p.byte k, mn.mode.length, c.cycAt (p.byte k)⟩ := by
  obtain ⟨hu, hcyc⟩ : mn ≠ .unused ∧ mn.givenCycles = none := m.rows_not_given _ hrow
  rw [Config.lookup_defined (Config.identify_assigned hm hc hrow (p.hits_byte k)) hu, Config.definedDescriptor, hcyc]
  rfl

/-- `lookup_assigned` for rows of one pattern form (`f` is `Pattern.family` or `Pattern.single`) and one mode. -/
theorem Config.lookup_assigned_rows {c : Config} {m : OpcodeMap} (hm : c.opcodeMap = some m) (hc : c.admitted = true)
    {α : Type} (f : α → Pattern) {rows : List (α × Mnemonic)} {md : Mode} (hsub : rows.map (Prod.map f id) ⊆ m.rows)
    (hmode : ∀ row ∈ rows, row.2.mode = md) (k : Sel) :
    ∀ row ∈ rows, c.lookup ((f row.1).byte k) =
      .ok ⟨row.2, md, (f row.1).byte k, md.length, c.cycAt ((f row.1).byte k)⟩ := by
  intro row hrow
  obtain rfl := hmode row hrow
  exact Config.lookup_assigned hm hc (hsub (List.mem_map_of_mem hrow)) k

/-- A descriptor's bytes and no more are its slot's instruction, and none is left over (R71). -/
theorem decode_exact {c : Config} {ob : Byte} {d : Descriptor} (h : c.lookup ob = .ok d) {op : List Byte}
    (hlen : op.length = d.length - 1) : decode c (ob :: op) = .ok (d.name.instr ob op, []) := by
  rw [decode_of_lookup h hlen.ge, ← hlen, List.take_length, List.drop_length]

/-! ## Unused bytes (R80, R84 (e), R85) -/

theorem any_hits_of_findRow_given {ob : Byte} {mn : Mnemonic} (h : findRow ob givenRows = some mn) :
    givenPatterns.any (·.hits ob) = true := by
  obtain ⟨p, hp, hh⟩ := findRow_some h
  exact List.any_eq_true.2 ⟨p, List.mem_map_of_mem (f := Prod.fst) hp, hh⟩

/-- A map leaves a byte unused exactly when none of its patterns holds it. -/
theorem OpcodeMap.findRow_getD_unused (m : OpcodeMap) (ob : Byte) :
    (findRow ob m.rows).getD .unused = .unused ↔ ∀ p ∈ m.patterns, p.hits ob = false := by
  rw [← m.rows_patterns, ← findRow_eq_none]
  cases hf : findRow ob m.rows with
  | none => simp
  | some mn =>
    obtain ⟨p, hp, -⟩ := findRow_some hf
    simpa using (m.rows_not_given _ hp).1

/-- With a map, a byte is unused if it is one of the five given, or in no pattern, given or assigned (R84 (e)). -/
theorem Config.isUnused_of_map {c : Config} {m : OpcodeMap} (hm : c.opcodeMap = some m) (ob : Byte) :
    c.isUnused ob = (isGivenUnused ob || !(givenPatterns ++ m.patterns).any (·.hits ob)) := by
  simp only [Config.isUnused, hm, List.not_any_eq_all_not]

/-- A byte of a given pattern is unused only where the source says so. -/
theorem Config.isUnused_of_given (c : Config) {ob : Byte} (h : givenPatterns.any (·.hits ob) = true) :
    c.isUnused ob = isGivenUnused ob := by
  cases hm : c.opcodeMap with
  | none => simp [Config.isUnused, hm]
  | some m => simp [Config.isUnused_of_map hm, List.any_append, h]

/-- `identify` answers unused exactly at the configuration's unused bytes, whatever the configuration. -/
theorem Config.identify_unused_iff (c : Config) (ob : Byte) : c.identify ob = .ok .unused ↔ c.isUnused ob = true := by
  have hgiven := findRow_given_eq_unused ob
  cases hrow : findRow ob givenRows with
  | some mn =>
    rw [Config.identify_given hrow, c.isUnused_of_given (any_hits_of_findRow_given hrow), ← hgiven, hrow]
    simp
  | none =>
    have hng : isGivenUnused ob = false := by simpa [hrow] using hgiven
    have hmiss : givenPatterns.any (·.hits ob) = false := by simpa using findRow_eq_none.1 hrow
    cases hm : c.opcodeMap with
    | none => simp [Config.identify, Config.isUnused, hrow, hm, hng]
    | some m =>
      have hmap := m.findRow_getD_unused ob
      rw [Config.isUnused_of_map hm, List.any_append, hmiss, hng]
      simpa [Config.identify, hrow, hm] using hmap

/-- In a complete configuration every byte has a descriptor (R78). -/
theorem Config.lookup_total {c : Config} (h : c.complete = true) (ob : Byte) : ∃ d, c.lookup ob = .ok d := by
  obtain ⟨hmap, hslots⟩ := Bool.and_eq_true_iff.1 h
  obtain ⟨m, hm⟩ := Option.isSome_iff_exists.1 hmap
  obtain ⟨mn, hid⟩ := Config.identify_total hm ob
  by_cases hu : mn = .unused
  · subst hu
    obtain ⟨u, hs⟩ : ∃ u, c.unusedSlot ob = some u := by
      unfold Config.unusedSlot
      split
      · exact ⟨_, rfl⟩
      · exact Option.isSome_iff_exists.1 (Vector.all_eq_true.1 hslots _ ob.isLt)
    exact ⟨_, Config.lookup_unused hid hs⟩
  · exact ⟨_, Config.lookup_defined hid hu⟩

/-- The descriptor of an unused byte is its slot's (R80). -/
theorem Config.lookup_of_isUnused {c : Config} {ob : Byte} {d : Descriptor} (h : c.lookup ob = .ok d)
    (hu : c.isUnused ob = true) : ∃ u, c.unusedSlot ob = some u ∧ d = u.descriptor ob := by
  have hid := (c.identify_unused_iff ob).2 hu
  cases hs : c.unusedSlot ob with
  | none => simp [Config.lookup, hid, hs] at h
  | some u => exact ⟨u, rfl, Except.ok.inj (h.symm.trans (Config.lookup_unused hid hs))⟩

/-! ## Counting the unused bytes (R84 (e)) -/

/-- The 256 opcode bytes in order. -/
def allBytes : List Byte := (List.range 256).map (BitVec.ofNat 8)

/-- How many opcode bytes a pattern has (R72, R73, R75). -/
def Pattern.size : Pattern → Nat
  | .family _ => 8
  | .single _ => 1

theorem allBytes_length : allBytes.length = 256 := by
  simp [allBytes]

theorem mem_allBytes (b : Byte) : b ∈ allBytes :=
  List.mem_map.2 ⟨b.toNat, List.mem_range.2 b.isLt, by simp⟩

theorem length_filter_range_eq_countP (f : Byte → Bool) :
    ((List.range 256).filter fun n => f (BitVec.ofNat 8 n)).length = allBytes.countP f := by
  rw [allBytes, List.countP_map, List.countP_eq_length_filter]
  rfl

theorem nodup_allBytes : allBytes.Nodup := by
  refine List.nodup_range.map_on fun a ha b hb hab => ?_
  have hmod : a % 256 = b % 256 := by simpa using congrArg BitVec.toNat hab
  rw [List.mem_range] at ha hb
  omega

/-- A family's bytes are eight consecutive numbers. -/
theorem Pattern.hits_family_ofNat (code : BitVec 5) (n : Nat) :
    (Pattern.family code).hits (BitVec.ofNat 8 n) = (n / 8 % 32 == code.toNat) := by
  have hmod : n % 256 / 8 % 32 = n / 8 % 32 := by omega
  rw [Bool.eq_iff_iff]
  simp [Pattern.hits, ← BitVec.toNat_inj, Nat.shiftRight_eq_div_pow, hmod]

theorem countP_hits_allBytes (p : Pattern) : allBytes.countP p.hits = p.size := by
  cases p with
  | family code =>
    have hperm : ((List.range 256).filter fun n => n / 8 % 32 == code.toNat).Perm (List.range' (8 * code.toNat) 8) := by
      refine (List.perm_ext_iff_of_nodup (List.nodup_range.filter _) List.nodup_range').2 fun n => ?_
      have hlt := code.isLt
      simp only [List.mem_filter, List.mem_range, beq_iff_eq, List.mem_range'_1]
      omega
    rw [allBytes, List.countP_map, Function.comp_def]
    simp only [Pattern.hits_family_ofNat]
    rw [List.countP_eq_length_filter, hperm.length_eq, List.length_range', Pattern.size]
  | single b => exact List.count_eq_one_of_mem nodup_allBytes (mem_allBytes b)

/-- Members of one of two predicates that no element meets both of. -/
theorem countP_or_of_disjoint {α : Type} {f g : α → Bool} (l : List α) (h : ∀ a, f a = true → g a = false) :
    l.countP (fun a => f a || g a) = l.countP f + l.countP g := by
  induction l with
  | nil => rfl
  | cons a l ih =>
    by_cases hf : f a = true
    · simp [hf, h a hf, ih]
      omega
    · simp [List.countP_cons, hf, ih, Nat.add_assoc]

/-- Disjoint patterns together hold as many bytes as they do one by one. -/
theorem countP_any_hits {ps : List Pattern} (hd : ps.Pairwise fun p q => p.disjoint q = true) :
    allBytes.countP (fun ob => ps.any (·.hits ob)) = (ps.map Pattern.size).sum := by
  induction ps with
  | nil => simp
  | cons p ps ih =>
    obtain ⟨hp, hps⟩ := List.pairwise_cons.1 hd
    have hdisj : ∀ ob, p.hits ob = true → ps.any (·.hits ob) = false := by
      intro ob hob
      refine List.any_eq_false.2 fun q hq hqob => ?_
      simpa [Pattern.not_disjoint_of_hits hob hqob] using hp q hq
    simp only [List.any_cons, List.map_cons, List.sum_cons]
    rw [countP_or_of_disjoint allBytes hdisj, countP_hits_allBytes, ih hps]

theorem countP_isGivenUnused : allBytes.countP isGivenUnused = 5 := by
  have hany : isGivenUnused = fun ob =>
      [.single 0x06#8, .single 0x07#8, .single 0x1C#8, .single 0x1D#8, .single 0x1E#8].any (Pattern.hits ob) :=
    funext fun _ => List.contains_eq_any_beq
  rw [hany, countP_any_hits (by decide)]
  rfl

/-- 49 given bytes and 140 assigned ones leave 67, and five of the given are unused. -/
theorem Config.countP_isUnused {c : Config} {m : OpcodeMap} (hm : c.opcodeMap = some m) (ha : m.admitted = true) :
    allBytes.countP c.isUnused = 72 := by
  have hbound : allBytes.countP (fun ob => (givenPatterns ++ m.patterns).any (·.hits ob)) = 189 := by
    rw [countP_any_hits (m.admitted_iff.1 ha)]
    simp [givenPatterns, OpcodeMap.patterns, Pattern.size]
  have hfree := List.length_eq_countP_add_countP (l := allBytes) fun ob => (givenPatterns ++ m.patterns).any (·.hits ob)
  have hdisj : ∀ ob, isGivenUnused ob = true → (!(givenPatterns ++ m.patterns).any (·.hits ob)) = false := by
    intro ob hob
    simp [List.any_append, any_hits_of_findRow_given ((findRow_given_eq_unused ob).2 hob)]
  simp only [Bool.not_eq_true, Bool.decide_eq_false, hbound, allBytes_length] at hfree
  rw [funext (Config.isUnused_of_map hm), countP_or_of_disjoint allBytes hdisj, countP_isGivenUnused]
  omega

end Sys2Proof

namespace Sys2Proof.Machine

/-- A byte whose meaning nothing fixes is refused by name (R85, R102). -/
theorem step_refused_of_no_map {s : State} (hm : s.config.opcodeMap = none)
    (hrow : findRow s.opcode givenRows = none) : step s = .refused (.unknownOpcode s.opcode) := by
  have hl : s.config.lookup s.opcode = .error (.unknownOpcode s.opcode) := by
    simp [Config.lookup, Config.identify, hrow, hm]
  exact step_refused.2 (fetch_refused.2 ⟨_, hl, rfl⟩)

/-- Where every slot is configured no Step is refused (R78, R102). -/
theorem step_ne_refused {s : State} (hc : s.config.complete = true) (r : Refusal) : step s ≠ .refused r := by
  intro h
  obtain ⟨e, he, -⟩ := fetch_refused.1 (step_refused.1 h)
  obtain ⟨d, hd⟩ := Config.lookup_total hc s.opcode
  exact absurd (he.symm.trans hd) (by simp)

/-- A Step whose byte has a descriptor that fits completes (R101, R104). -/
theorem exists_step_of_fits {s : State} {d : Descriptor} (hl : s.config.lookup s.opcode = .ok d)
    (hfit : s.Fits d.length) : ∃ t, step s = .next t := by
  obtain ⟨u, hu⟩ := exec_next (d.name.instr s.opcode (s.operandBytes d)) (s.advance d.length)
  exact ⟨_, step_next.2 ⟨d, u, hl, hfit, hu, rfl⟩⟩

/-! ## The obligations -/

/-- Settles O16: each list is a part of the map's rows, of one pattern form and one mode. -/
theorem assignedSlots : Obligations.AssignedSlots := by
  intro c m k hm hc
  refine ⟨Config.lookup_assigned_rows hm hc .family (md := .imp) ?_ ?_ k,
    Config.lookup_assigned_rows hm hc .family (md := .imm) ?_ ?_ k,
    Config.lookup_assigned_rows hm hc .family (md := .abs) ?_ ?_ k,
    Config.lookup_assigned_rows hm hc .single (md := .imm) ?_ ?_ k,
    Config.lookup_assigned_rows hm hc .single (md := .abs) ?_ ?_ k,
    Config.lookup_assigned hm hc (p := .single m.ret) (mn := .ret) ?_ k⟩
  all_goals simp [OpcodeMap.rows, Mnemonic.mode]

/-- Settles O17: a complete table answers for every byte, and unused is what `identify` says of the unused bytes. -/
theorem everySlotHasADescriptor : Obligations.EverySlotHasADescriptor := by
  intro c ob hc
  obtain ⟨d, hl⟩ := Config.lookup_total hc ob
  obtain ⟨hop, hlen, hid⟩ := Config.lookup_ok hl
  have hlo := d.mode.length_pos
  have hhi := d.mode.length_le
  refine ⟨d, hl, hop, by omega, fun hu hn => ?_, fun hu => ?_⟩
  · simp [(c.identify_unused_iff ob).1 (hn ▸ hid)] at hu
  · obtain ⟨u, hs, rfl⟩ := Config.lookup_of_isUnused hl hu
    exact ⟨rfl, fun _ _ => rfl, u, hs, rfl, rfl⟩

/-- Settles O22: each of the eight families shares a byte with a given pattern. -/
theorem familiesAvoidGivenBlocks : Obligations.FamiliesAvoidGivenBlocks := by
  intro m code ha hcode hblock
  have hmeets : ∀ b ∈ [0x00#5, 0x03#5, 0x07#5, 0x08#5, 0x09#5, 0x10#5, 0x1C#5, 0x1D#5],
      ∃ p ∈ givenPatterns, p.disjoint (.family b) = false := by decide
  obtain ⟨p, hp, hdisj⟩ := hmeets code hblock
  simp [OpcodeMap.given_disjoint ha hp hcode] at hdisj

/-- Settles O23, by counting the bytes of disjoint patterns. -/
theorem seventyTwoUnusedSlots : Obligations.SeventyTwoUnusedSlots := by
  intro c m hm hc
  have ha : m.admitted = true := by simpa [Config.admitted, hm] using hc
  exact ⟨c.identify_unused_iff, (length_filter_range_eq_countP c.isUnused).trans (Config.countP_isUnused hm ha)⟩

/-- Settles O26: a complete table answers for every byte, and three bytes fit below $FFFD. -/
theorem refusalsComeFromMissingConfiguration : Obligations.RefusalsComeFromMissingConfiguration := by
  refine ⟨fun s hm hrow => step_refused_of_no_map hm hrow, fun s r hc => step_ne_refused hc r, fun s hc hpc => ?_⟩
  obtain ⟨d, hl⟩ := Config.lookup_total hc s.opcode
  have hlen : d.length ≤ 3 := (Config.lookup_ok hl).2.1 ▸ d.mode.length_le
  exact exists_step_of_fits hl (hpc.imp (fun _ => by omega) id)

/-- Settles O15, by the rows of R79. -/
theorem givenSlots : Obligations.GivenSlots := by
  intro c k
  refine ⟨c.lookup_given (p := .single 0x00#8) (mn := .nop) ?_ ?_ k,
    c.lookup_given (p := .single 0x01#8) (mn := .halt) ?_ ?_ k,
    c.lookup_given (p := .single 0x18#8) (mn := .lbr) ?_ ?_ k,
    c.lookup_given (p := .single 0x80#8) (mn := .adr) ?_ ?_ k,
    c.lookup_given (p := .family 0b00111#5) (mn := .setq) ?_ ?_ k,
    c.lookup_given (p := .family 0b01000#5) (mn := .push) ?_ ?_ k,
    c.lookup_given (p := .family 0b01001#5) (mn := .pop) ?_ ?_ k,
    c.lookup_given (p := .family 0b11100#5) (mn := .ldi) ?_ ?_ k,
    c.lookup_given (p := .family 0b11101#5) (mn := .sti) ?_ ?_ k,
    fun ob hob => c.lookup_given_unused (List.contains_iff_mem.2 hob)⟩
  all_goals decide

/-- Settles O14: the first byte of each word is a given slot's, with exactly the descriptor's operand bytes after it. -/
theorem givenWordsDecode : Obligations.GivenWordsDecode := by
  intro c
  obtain ⟨hnop, hhalt, hlbr, hadr, hsetq, -, -, -, hsti, hunused⟩ := givenSlots c 5#3
  obtain ⟨-, -, -, -, -, hpush, -⟩ := givenSlots c 3#3
  obtain ⟨-, -, -, -, -, -, hpop, -⟩ := givenSlots c 7#3
  obtain ⟨-, -, -, -, -, -, -, hldi, -⟩ := givenSlots c 1#3
  exact ⟨decode_exact hnop rfl, decode_exact hhalt rfl, decode_exact hlbr rfl, decode_exact hadr rfl,
    decode_exact hsetq rfl, decode_exact hpush rfl, decode_exact hpop rfl, decode_exact hldi rfl, decode_exact hsti rfl,
    decode_exact (hunused 0x1E#8 (by decide)) rfl⟩

/-- Settles O18, by the values of the operand byte's fields. -/
theorem dualOperandFields : Obligations.DualOperandFields := by
  intro ob v vs
  refine ⟨dualX v, dualY v, dualX_toNat v, dualY_toNat v, rfl, rfl, rfl, rfl, rfl, rfl, rfl, ?_⟩
  decide

/-- Settles O19, by the values of the selector and of the word. -/
theorem absoluteAddressHighByteFirst : Obligations.AbsoluteAddressHighByteFirst :=
  fun ob hi lo _ => ⟨selOf ob, wordOf hi lo, selOf_toNat ob, wordOf_toNat hi lo, rfl, rfl, rfl, rfl, rfl, rfl, rfl, rfl,
    rfl⟩

end Sys2Proof.Machine
end

section
/-! # The Step (40_execution.md)

What the verdict of a Step and the PC after it depend on: the descriptor of the byte at PC, whether it fits, and the few
handlers that write PC. -/

namespace Sys2Proof

/-! ## Descriptors -/

/-- R71. -/
theorem Config.lookup_length_bounds {c : Config} {ob : Byte} {d : Descriptor} (h : c.lookup ob = .ok d) :
    1 ≤ d.length ∧ d.length ≤ 3 := by
  rw [(Config.lookup_ok h).2.1]
  exact ⟨d.mode.length_pos, d.mode.length_le⟩

/-- A defined byte has the length of its instruction's mode (R81). -/
theorem Config.lookup_length {c : Config} {ob : Byte} {d : Descriptor} (h : c.lookup ob = .ok d)
    (hu : d.name ≠ .unused) : d.length = d.name.mode.length := by
  obtain ⟨-, -, hid⟩ := Config.lookup_ok h
  exact congrArg Descriptor.length (Except.ok.inj (h.symm.trans (Config.lookup_defined hid hu)))

/-- An unused slot that is not one of the five given has the length and cycles configured for it (R80). -/
theorem Config.lookup_configured_unused {c : Config} {ob : Byte} {u : UnusedSlot} (hu : c.isUnused ob = true)
    (hg : isGivenUnused ob = false) (hs : c.unusedAt ob = some u) : c.lookup ob = .ok (u.descriptor ob) :=
  Config.lookup_unused ((c.identify_unused_iff ob).2 hu) (by simp [Config.unusedSlot, hg, hs])

/-- An unused slot without a length has no descriptor (R102). -/
theorem Config.lookup_unconfigured_unused {c : Config} {ob : Byte} (hu : c.isUnused ob = true)
    (hg : isGivenUnused ob = false) (hs : c.unusedAt ob = none) : c.lookup ob = .error (.unusedLength ob) := by
  simp [Config.lookup, (c.identify_unused_iff ob).2 hu, Config.unusedSlot, hg, hs]

theorem Config.identify_ne_truncated (c : Config) (ob : Byte) : c.identify ob ≠ .error .truncated := by
  unfold Config.identify
  split
  · simp
  · split <;> simp

/-- `truncated` is an error of `decode` only. -/
theorem Config.lookup_ne_truncated (c : Config) (ob : Byte) : c.lookup ob ≠ .error .truncated := by
  unfold Config.lookup
  split
  · next e hid =>
    rintro ⟨⟩
    exact c.identify_ne_truncated ob hid
  · split
    · split <;> simp
    · simp

end Sys2Proof

namespace Sys2Proof.Machine

/-! ## The bytes at PC -/

@[simp] theorem State.byteAt_zero (s : State) : s.byteAt 0 = s.opcode :=
  congrArg s.read (BitVec.add_zero s.pc)

/-- The address of a three-byte instruction, high byte first (R77). -/
theorem State.absAddr_operandBytes (s : State) {d : Descriptor} (h : d.length = 3) :
    absAddr (s.operandBytes d) = wordOf (s.byteAt 1) (s.byteAt 2) := by
  have hsecond : s.pc + 1#16 + 1#16 = s.pc + 2#16 := by bv_omega
  rw [State.operandBytes, h]
  exact congrArg (fun a => wordOf (s.byteAt 1) (s.read a)) hsecond

/-- Decoding three bytes at PC gives the instruction a fetch gives, and leaves the bytes after it (R101). -/
theorem decode_at_pc {s : State} {d : Descriptor} (hl : s.config.lookup s.opcode = .ok d) :
    decode s.config (s.mem.readBytes s.pc 3) =
      .ok (d.name.instr s.opcode (s.operandBytes d), (s.mem.readBytes (s.pc + 1#16) 2).drop (d.length - 1)) := by
  obtain ⟨-, hlen⟩ := Config.lookup_length_bounds hl
  have hrest : d.length - 1 ≤ 2 := by omega
  have hdec := decode_of_lookup hl (rest := s.mem.readBytes (s.pc + 1#16) 2) (by simpa using hrest)
  rwa [Memory.take_readBytes _ _ hrest] at hdec

/-! ## The verdict of a Step (R102, R104, R204) -/

theorem State.not_fits_iff (s : State) (n : Nat) :
    ¬ s.Fits n ↔ 65536 ≤ s.pc.toNat + n ∧ s.config.addrWrap = .fault := by
  unfold State.Fits
  cases s.config.addrWrap <;> simp

/-- Each error a lookup can answer is a refusal of its own (R202). -/
theorem refusalOf_inj {ob : Byte} {e e' : DecodeError} (he : e ≠ .truncated) (he' : e' ≠ .truncated)
    (h : refusalOf ob e = refusalOf ob e') : e = e' := by
  cases e with
  | truncated => exact absurd rfl he
  | unknownOpcode b | unusedLength b =>
    cases e' with
    | truncated => exact absurd rfl he'
    | unknownOpcode b' | unusedLength b' => cases h <;> rfl

/-- A Step is refused by the name of what the lookup misses. -/
theorem step_refused_iff {s : State} {e : DecodeError} (he : e ≠ .truncated) :
    step s = .refused (refusalOf s.opcode e) ↔ s.config.lookup s.opcode = .error e := by
  rw [step_refused, fetch_refused]
  constructor
  · rintro ⟨e', hl, hr⟩
    have he' : e' ≠ .truncated := by
      rintro rfl
      exact Config.lookup_ne_truncated _ _ hl
    rw [hl, refusalOf_inj he he' hr]
  · intro hl
    exact ⟨e, hl, rfl⟩

theorem exists_step_iff {s : State} :
    (∃ t, step s = .next t) ↔ ∃ d, s.config.lookup s.opcode = .ok d ∧ s.Fits d.length := by
  constructor
  · rintro ⟨t, h⟩
    obtain ⟨d, -, hl, hfit, -⟩ := step_next.1 h
    exact ⟨d, hl, hfit⟩
  · rintro ⟨d, hl, hfit⟩
    exact exists_step_of_fits hl hfit

/-! ## PC and the counters after a Step -/

@[simp] theorem State.branchIf_pc (s : State) (p : Bool) (a : Addr) :
    (s.branchIf p a).pc = if p then a else s.pc := by
  cases p <;> rfl

/-- R110: the handlers that write PC are those of HALT, the branches, CALL and RET. -/
theorem exec_pc {i : Instr} {s t : State} (h : exec i s = .next t)
    (hi : i.mnemonic ∉ [.halt, .lbr, .lbrc, .lbrz, .lbrq, .call, .ret]) : t.pc = s.pc := by
  cases i with
  | halt | lbr a | lbrc a | lbrz a | lbrq q a | call a | ret => simp [Instr.mnemonic] at hi
  | _ => cases h; rfl

/-- The operand of a slot of mode abs is the word after the opcode (R77, R81). -/
theorem State.operand_of_abs {s : State} {d : Descriptor} (hl : s.config.lookup s.opcode = .ok d)
    (hm : d.name.mode = .abs) :
    d.length = 3 ∧ absAddr (s.operandBytes d) = wordOf (s.byteAt 1) (s.byteAt 2) := by
  have hu : d.name ≠ .unused := by
    intro hn
    simp [hn, Mnemonic.mode] at hm
  have hlen : d.length = 3 := by rw [Config.lookup_length hl hu, hm, Mode.length]
  exact ⟨hlen, s.absAddr_operandBytes hlen⟩

/-- PC after the advance past a branch and its decision (R184). -/
theorem State.branch_pc {s : State} {d : Descriptor} (hl : s.config.lookup s.opcode = .ok d)
    (hm : d.name.mode = .abs) (p : Bool) :
    ((s.advance d.length).branchIf p (absAddr (s.operandBytes d))).pc =
      if p then wordOf (s.byteAt 1) (s.byteAt 2) else s.pc + 3#16 := by
  obtain ⟨hlen, haddr⟩ := State.operand_of_abs hl hm
  rw [State.branchIf_pc, State.advance_pc, hlen, haddr]

/-- RET reads the two bytes above SP, the high byte at the higher address (R179). -/
theorem exec_ret_pc {s t : State} (h : exec .ret s = .next t) :
    t.pc = wordOf (s.read (stackAddr (s.sp + 2#8))) (s.read (stackAddr (s.sp + 1#8))) := by
  have hsp : s.sp + 1#8 + 1#8 = s.sp + 2#8 := by bv_omega
  cases h
  rw [← hsp]
  rfl

/-- R101: the advance sets LastPC, the charge adds the cycles, and the handler between them keeps both. -/
theorem step_charged {s t : State} {d : Descriptor} (h : step s = .next t)
    (hl : s.config.lookup s.opcode = .ok d) : Charged d.cycles s t := by
  obtain ⟨i, u, -, hu, rfl⟩ := exists_handler_of_step h hl
  obtain ⟨hlast, hcycles, hconfig⟩ := exec_handlerFrame hu
  exact ⟨hlast, congrArg (· + d.cycles) hcycles, hconfig⟩

/-! ## The halted state (R109) -/

theorem step_of_halted {s : State} (h : s.Halted) : step s = .next (s.withCounters s.pc (s.cycles + 1)) := by
  obtain ⟨hop, hpc⟩ := h
  have hl : s.config.lookup s.opcode = .ok (s.config.definedDescriptor .halt 0x01#8) := by
    rw [State.opcode, hop]
    exact s.config.lookup_given (p := .single 0x01#8) (by decide) (by decide) 0#3
  have hfit : s.Fits 1 := .inl (by bv_omega)
  exact step_next.2 ⟨_, _, hl, hfit, rfl, rfl⟩

/-- From a halted state the Step after `n` Steps is again the HALT's. -/
theorem exists_runs_of_halted {s : State} (h : s.Halted) (n : Nat) :
    ∃ p, Runs n s p ∧ p.Halted ∧ p.pc = s.pc ∧ step p = .next (s.withCounters s.pc (s.cycles + (n + 1))) := by
  induction n with
  | zero => exact ⟨s, .zero s, h, rfl, step_of_halted h⟩
  | succ n ih =>
    obtain ⟨p, hruns, -, -, hstep⟩ := ih
    have hnext : (s.withCounters s.pc (s.cycles + (n + 1))).Halted := h
    exact ⟨_, hruns.snoc hstep, hnext, rfl, step_of_halted hnext⟩

theorem ended_of_halted {s : State} (h : s.Halted) (n : Nat) :
    s.Ended (n + 1) (s.withCounters s.pc (s.cycles + (n + 1))) := by
  obtain ⟨p, hruns, ⟨hop, -⟩, hpc, hstep⟩ := exists_runs_of_halted h n
  exact ⟨h, n, p, rfl, hruns, hstep, hop, hpc⟩

theorem State.Ended.runs {s t : State} {n : Nat} (h : s.Ended n t) : Runs n s t := by
  obtain ⟨-, m, p, rfl, hruns, hstep, -, -⟩ := h
  exact hruns.snoc hstep

theorem State.Ended.lastPc {s t : State} {n : Nat} (h : s.Ended n t) : t.lastPc = t.pc := by
  obtain ⟨-, m, p, -, -, hstep, -, hpc⟩ := h
  obtain ⟨d, -, hl, -⟩ := step_next.1 hstep
  exact (step_charged hstep hl).lastPc.trans hpc

/-! ## Unused slots (R106) -/

theorem step_of_unused {s : State} {u : UnusedSlot} (hl : s.config.lookup s.opcode = .ok (u.descriptor s.opcode))
    (hfit : s.Fits u.mode.length) : step s = .next ((s.advance u.mode.length).charge u.cycles) :=
  step_next.2 ⟨_, _, hl, hfit, rfl, rfl⟩

/-! ## The obligations -/

/-- Settles O25, by what a fetch answers. -/
theorem stepVerdicts : Obligations.StepVerdicts := by
  intro s
  refine ⟨fun b => step_refused_iff (e := .unknownOpcode b) (by simp),
    fun b => step_refused_iff (e := .unusedLength b) (by simp), ?_, exists_step_iff⟩
  rw [step_fault, fetch_fault]
  simp [State.not_fits_iff, State.opcode]

/-- Settles O27: seven handlers write PC, and the address of those with an operand is the two bytes after the opcode. -/
theorem pcAndCyclesOfEveryStep : Obligations.PcAndCyclesOfEveryStep := by
  intro s t d a h hl ha
  have hcharged : Charged d.cycles s t := step_charged h hl
  obtain ⟨d', u, hl', -, hu, rfl⟩ := step_next.1 h
  obtain rfl : d' = d := Except.ok.inj (hl'.symm.trans hl)
  obtain rfl : a = wordOf (s.byteAt 1) (s.byteAt 2) := BitVec.eq_of_toNat_eq (ha.trans (wordOf_toNat ..).symm)
  have hexec : ∀ {mn : Mnemonic}, d'.name = mn →
      exec (mn.instr s.opcode (s.operandBytes d')) (s.advance d'.length) = .next u := fun hn => hn ▸ hu
  refine ⟨hcharged, fun hn => exec_pc hu (by simpa using hn), fun hn => ?_, fun hn => ?_, fun hn => ?_, fun hn => ?_,
    fun hn => ?_, fun hn => (congrArg BitVec.toNat (exec_ret_pc (hexec hn))).trans (wordOf_toNat ..)⟩
  · cases hexec hn
    rfl
  · rcases hn with hn | hn
    · cases hexec hn
      exact (State.operand_of_abs hl (hn ▸ rfl)).2
    · cases hexec hn
      exact (State.operand_of_abs hl (hn ▸ rfl)).2
  · cases hexec hn
    exact State.branch_pc hl (hn ▸ rfl) s.flags.c
  · cases hexec hn
    exact State.branch_pc hl (hn ▸ rfl) s.flags.z
  · cases hexec hn
    rw [State.byteAt_zero, ← selOf_toNat]
    exact State.branch_pc hl (hn ▸ rfl) (s.line (selOf s.opcode))

/-- Settles O28: from a halted state every Step is the HALT's, and a run reaches one state only. -/
theorem haltedStateStays : Obligations.HaltedStateStays := by
  refine ⟨fun s n h => ?_, fun s t h => ?_, fun s t n h => ⟨h.runs, h.1, h.lastPc⟩⟩
  · have hended := ended_of_halted h n
    refine ⟨hended.runs, fun t ht => ?_⟩
    obtain rfl := ht.det hended.runs
    exact ⟨hended, rfl⟩
  · obtain ⟨-, m, p, hm, -⟩ := h
    exact absurd hm (Nat.succ_ne_zero m).symm

/-- Settles O38: the handler of an unused slot does nothing. -/
theorem unusedSlotStep : Obligations.UnusedSlotStep := by
  have hng : ∀ {ob : Byte}, ob ∉ [0x06#8, 0x07#8, 0x1C#8, 0x1D#8, 0x1E#8] → isGivenUnused ob = false :=
    fun hb => Bool.eq_false_iff.2 fun hg => hb (List.contains_iff_mem.1 hg)
  simp only [Obligations.UnusedSlotStep, State.byteAt_zero]
  refine ⟨fun s hb hfit => ?_, fun s u hu hb hs hfit => ?_, fun s hu hb hs => ?_⟩
  · exact step_of_unused (u := ⟨.imp, 1⟩) (Config.lookup_given_unused _ (List.contains_iff_mem.2 hb)) hfit
  · exact step_of_unused (Config.lookup_configured_unused hu (hng hb) hs) hfit
  · exact (step_refused_iff (e := .unusedLength s.opcode) (by simp)).2
      (Config.lookup_unconfigured_unused hu (hng hb) hs)

/-- Settles O24: a fetch reads the bytes that decode. -/
theorem stepRunsTheDecodedInstruction : Obligations.StepRunsTheDecodedInstruction := by
  intro s t i rest d hdec hl hfit
  obtain ⟨hlo, hhi⟩ := Config.lookup_length_bounds hl
  obtain ⟨rfl, rfl⟩ := Prod.mk.inj (Except.ok.inj ((decode_at_pc hl).symm.trans hdec))
  refine ⟨?_, fun hu => step_next.2 ⟨d, t, hl, hfit, hu, rfl⟩⟩
  rw [List.length_drop, Memory.length_readBytes]
  omega

/-- Settles O39, by the meanings of the three instructions. -/
theorem noOpAndHaltResults : Obligations.NoOpAndHaltResults :=
  fun _ => ⟨rfl, fun _ => rfl, rfl⟩

end Sys2Proof.Machine
end

section
/-! # Arithmetic and logic (41_arith_logic.md)

Every one of these handlers writes registers and flags only. A result goes through `setResult` or `setResultC`, so its
register, its flags and its frame are said once for each of the two; what is left of an instruction is the number its
value has. -/

namespace Sys2Proof.Machine

/-! ## Flags of a result (R28, R140) -/

/-- The sign mask keeps a bit exactly in the bytes from 128 on. -/
theorem and_signMask_ne_zero : ∀ v : Byte, ((v &&& 0x80#8) != 0#8) = decide (128 ≤ v.toNat) := by
  decide

theorem nzOf_updateNZ (f : Flags) (v : Byte) : NZOf v.toNat f (f.updateNZ v) where
  z := decide_eq_decide.2 BitVec.toNat_inj.symm
  s := and_signMask_ne_zero v
  c := rfl
  i := rfl
  d := rfl
  b := rfl
  v := rfl

/-- Carry of a left shift: bit 7 is the one that weighs 128. -/
theorem getLsbD_seven (v : Byte) : v.getLsbD 7 = decide (128 ≤ v.toNat) :=
  (BitVec.msb_eq_getLsbD_last v).symm.trans (BitVec.msb_eq_decide v)

/-- Carry of a right shift: bit 0 is set in the odd numbers. -/
theorem getLsbD_zero (v : Byte) : v.getLsbD 0 = decide (v.toNat % 2 = 1) :=
  Nat.testBit_zero v.toNat

theorem compareEqual_of_eq (u : CmpUnequal) {a b : Byte} (c : Bool) (h : a = b) : compareEqual u a b c = true :=
  if_pos h

theorem compareEqual_clear_of_ne {a b : Byte} (c : Bool) (h : a ≠ b) : compareEqual .clear a b c = false :=
  if_neg h

theorem compareEqual_keep_of_ne {a b : Byte} (c : Bool) (h : a ≠ b) : compareEqual .keep a b c = c :=
  if_neg h

/-! ## Values (R123, R134–R137, R141) -/

theorem toNat_sub_eq_emod (a b : Byte) : ((a - b).toNat : Int) = (a.toNat - b.toNat : Int) % 256 := by
  have ha := a.isLt
  have hb := b.isLt
  rw [BitVec.toNat_sub]
  omega

theorem shiftLeft_toNat : ∀ (v : Byte) (b : Bool), (shiftLeft v b).toNat = (v.toNat * 2 + b.toNat) % 256 := by
  decide

theorem shiftRight_toNat : ∀ (v : Byte) (b : Bool), (shiftRight v b).toNat = v.toNat / 2 + 128 * b.toNat := by
  decide

/-! ## Frames -/

/-- Registers and flags may be replaced under the frame, if the registers outside `rs` are kept. -/
theorem registerFrame_of_sameRegsBut {rs : List Sel} {s : State} {regs : Vector Byte 8} {f : Flags}
    (h : SameRegsBut rs s { s with regs := regs, flags := f }) :
    RegisterFrame rs s { s with regs := regs, flags := f } :=
  ⟨h, fun _ => rfl, rfl, rfl, rfl, rfl, rfl, rfl⟩

theorem registerFrame_setFlags (s : State) (f : Flags) : RegisterFrame [] s (s.setFlags f) :=
  registerFrame_of_sameRegsBut fun _ _ => rfl

theorem sameRegsBut_setReg_setReg (s : State) (x y : Sel) (v w : Byte) :
    SameRegsBut [x, y] s ((s.setReg x v).setReg y w) := by
  intro k hk
  obtain ⟨hkx, hky⟩ : k ≠ x ∧ k ≠ y := by simpa using hk
  rw [State.reg_setReg_ne _ _ hky, State.reg_setReg_ne _ _ hkx]

/-- Writing a register's own value changes nothing. -/
theorem State.setReg_reg (s : State) (r : Sel) : s.setReg r (s.reg r) = s := by
  simp [State.setReg, State.reg]

/-! ## Results -/

theorem State.reg_setResult_same (s : State) (r : Sel) (v : Byte) : (s.setResult r v).reg r = v :=
  s.reg_setReg_same r v

theorem State.reg_setResultC_same (s : State) (r : Sel) (v : Byte) (b : Bool) : (s.setResultC r v b).reg r = v :=
  s.reg_setReg_same r v

/-- Z and S follow the register written, the other flags are kept, and nothing else changes. -/
theorem State.setResult_frame (s : State) (r : Sel) (v : Byte) :
    NZOf ((s.setResult r v).reg r).toNat s.flags (s.setResult r v).flags ∧ RegisterFrame [r] s (s.setResult r v) := by
  refine ⟨?_, registerFrame_of_sameRegsBut (sameRegsBut_setResult s r v)⟩
  rw [State.reg_setResult_same]
  exact nzOf_updateNZ s.flags v

/-- The same where the handler gives Carry: it is the one flag beside Z and S that is not kept. -/
theorem State.setResultC_frame (s : State) (r : Sel) (v : Byte) {b c : Bool} (h : b = c) :
    NZOf ((s.setResultC r v b).reg r).toNat { s.flags with c := c } (s.setResultC r v b).flags ∧
      RegisterFrame [r] s (s.setResultC r v b) := by
  subst h
  refine ⟨?_, registerFrame_of_sameRegsBut (sameRegsBut_setResultC s r v b)⟩
  rw [State.reg_setResultC_same]
  exact nzOf_updateNZ (s.flags.setC b) v

/-- R120–R122. -/
theorem State.addTo_result (s : State) (r : Sel) (v : Byte) :
    ((s.addTo r v).reg r).toNat = ((s.reg r).toNat + v.toNat) % 256 ∧
      NZOf ((s.addTo r v).reg r).toNat s.flags (s.addTo r v).flags ∧ RegisterFrame [r] s (s.addTo r v) := by
  refine ⟨?_, s.setResult_frame r _⟩
  rw [State.addTo, State.reg_setResult_same, BitVec.toNat_add]

/-- R133: taking 1 away is adding 255 modulo 256. -/
theorem exec_dec (r : Sel) (s : State) : exec (.dec r) s = .next (s.addTo r 255#8) := by
  have hvalue : s.reg r - 1#8 = s.reg r + 255#8 := BitVec.sub_eq_add_neg ..
  rw [State.addTo, ← hvalue]
  rfl

/-- R123–R125. -/
theorem State.subFrom_result (s : State) (r : Sel) (v : Byte) :
    (((s.subFrom r v).reg r).toNat : Int) = ((s.reg r).toNat - v.toNat : Int) % 256 ∧
      NZOf ((s.subFrom r v).reg r).toNat { s.flags with c := decide (v.toNat ≤ (s.reg r).toNat) }
        (s.subFrom r v).flags ∧
      RegisterFrame [r] s (s.subFrom r v) := by
  refine ⟨?_, s.setResultC_frame r _ rfl⟩
  rw [State.subFrom, State.reg_setResultC_same, toNat_sub_eq_emod]

/-- R126–R131: an operation of bytes that is one of Booleans at each bit. -/
theorem State.bitwise_result {op : Byte → Byte → Byte} {g : Bool → Bool → Bool}
    (hop : ∀ a b k, (op a b).getLsbD k = g (a.getLsbD k) (b.getLsbD k)) (s : State) (r : Sel) (v : Byte) :
    (∀ k, ((s.setResult r (op (s.reg r) v)).reg r).getLsbD k = g ((s.reg r).getLsbD k) (v.getLsbD k)) ∧
      NZOf ((s.setResult r (op (s.reg r) v)).reg r).toNat s.flags (s.setResult r (op (s.reg r) v)).flags ∧
      RegisterFrame [r] s (s.setResult r (op (s.reg r) v)) := by
  refine ⟨fun k => ?_, s.setResult_frame r _⟩
  rw [State.reg_setResult_same, hop]

/-! ## The obligations -/

/-- Settles O40: all three are `addTo`. -/
theorem additionResults : Obligations.AdditionResults :=
  fun s => ⟨fun x y => ⟨_, rfl, s.addTo_result x (s.reg y)⟩, fun r imm => ⟨_, rfl, s.addTo_result r imm⟩,
    fun r a => ⟨_, rfl, s.addTo_result r (s.read a)⟩⟩

/-- Settles O41: all three are `subFrom`. -/
theorem subtractionResults : Obligations.SubtractionResults :=
  fun s => ⟨fun x y => ⟨_, rfl, s.subFrom_result x (s.reg y)⟩, fun r imm => ⟨_, rfl, s.subFrom_result r imm⟩,
    fun r a => ⟨_, rfl, s.subFrom_result r (s.read a)⟩⟩

/-- Settles O42: a bitwise operation with the other register's byte. -/
theorem registerLogicResults : Obligations.RegisterLogicResults :=
  fun s x y => ⟨⟨_, rfl, State.bitwise_result (g := and) (fun _ _ _ => BitVec.getLsbD_and) s x (s.reg y)⟩,
    ⟨_, rfl, State.bitwise_result (g := or) (fun _ _ _ => BitVec.getLsbD_or) s x (s.reg y)⟩,
    ⟨_, rfl, State.bitwise_result (g := xor) (fun _ _ _ => BitVec.getLsbD_xor) s x (s.reg y)⟩⟩

/-- Settles O43: a bitwise operation with the immediate byte. -/
theorem immediateLogicResults : Obligations.ImmediateLogicResults :=
  fun s r imm => ⟨⟨_, rfl, State.bitwise_result (g := and) (fun _ _ _ => BitVec.getLsbD_and) s r imm⟩,
    ⟨_, rfl, State.bitwise_result (g := or) (fun _ _ _ => BitVec.getLsbD_or) s r imm⟩,
    ⟨_, rfl, State.bitwise_result (g := xor) (fun _ _ _ => BitVec.getLsbD_xor) s r imm⟩⟩

/-- Settles O44: INC adds 1 and DEC adds 255. -/
theorem incrementAndDecrementResults : Obligations.IncrementAndDecrementResults :=
  fun s r => ⟨⟨_, rfl, s.addTo_result r 1#8⟩, ⟨_, exec_dec r s, s.addTo_result r 255#8⟩⟩

/-- Settles O45, by the number a left shift gives. -/
theorem leftShiftResults : Obligations.LeftShiftResults := by
  intro s r
  refine ⟨⟨_, rfl, ?_, s.setResultC_frame r _ (getLsbD_seven _)⟩, ⟨_, rfl, ?_, s.setResult_frame r _⟩⟩
  · rw [State.reg_setResultC_same]
    exact shiftLeft_toNat (s.reg r) false
  · rw [State.reg_setResult_same]
    exact shiftLeft_toNat (s.reg r) s.flags.c

/-- Settles O46, by the number a right shift gives. -/
theorem rightShiftResults : Obligations.RightShiftResults := by
  intro s r
  refine ⟨⟨_, rfl, ?_, s.setResultC_frame r _ (getLsbD_zero _)⟩, ⟨_, rfl, ?_, s.setResult_frame r _⟩⟩
  · rw [State.reg_setResultC_same]
    exact shiftRight_toNat (s.reg r) false
  · rw [State.reg_setResult_same]
    exact shiftRight_toNat (s.reg r) s.flags.c

/-- Settles O47, by the cases of equality and of `CMP_UNEQUAL`. -/
theorem compareResult : Obligations.CompareResult := by
  intro s x y
  refine ⟨_, rfl, fun heq => compareEqual_of_eq _ _ heq, fun hne hclear => ?_, fun hne hkeep => ?_, rfl,
    registerFrame_setFlags s _⟩
  · rw [State.setFlags_flags, Flags.setC_c, hclear, compareEqual_clear_of_ne _ hne]
  · rw [State.setFlags_flags, Flags.setC_c, hkeep, compareEqual_keep_of_ne _ hne]

/-- Settles O48: the second write does not undo the first unless the registers are one. -/
theorem exchangeResult : Obligations.ExchangeResult := by
  intro s x y
  refine ⟨_, rfl, ?_, State.reg_setReg_same .., ?_, rfl,
    registerFrame_of_sameRegsBut (sameRegsBut_setReg_setReg s x y _ _)⟩
  · by_cases hxy : x = y
    · subst hxy
      exact State.reg_setReg_same ..
    · rw [State.reg_setReg_ne _ _ hxy, State.reg_setReg_same]
  · rintro rfl
    rw [State.setReg_reg, State.setReg_reg]

/-- Settles O34: byte $80 is ADR's in every configuration, and the sum is that of the handler. -/
theorem adrStep : Obligations.AdrStep := by
  intro s x y hop hfit hx hy
  rw [State.byteAt_zero] at hop
  obtain rfl : x = dualX (s.byteAt 1) := BitVec.eq_of_toNat_eq (hx.trans (dualX_toNat _).symm)
  obtain rfl : y = dualY (s.byteAt 1) := BitVec.eq_of_toNat_eq (hy.trans (dualY_toNat _).symm)
  have hl : s.config.lookup s.opcode = .ok (s.config.definedDescriptor .adr 0x80#8) := by
    rw [hop]
    exact s.config.lookup_given (p := .single 0x80#8) (by decide) (by decide) 0#3
  have hstep := step_next.2 ⟨_, _, hl, hfit, rfl, rfl⟩
  obtain ⟨hsum, hnz, hframe⟩ := (s.advance 2).addTo_result (dualX (s.byteAt 1)) (s.reg (dualY (s.byteAt 1)))
  exact ⟨_, hstep, hsum, hnz, hframe.regs, hframe.memory, hframe.sp, hframe.q, hframe.pc, step_charged hstep hl⟩

/-- Settles O59: SHLC brings in the Carry SHL took from the low byte, and neither touches the other's register. -/
theorem shiftPairShiftsSixteenBits : Obligations.ShiftPairShiftsSixteenBits := by
  intro s hi lo hne
  obtain ⟨t, ht, hlo, hnzt, hft⟩ := (leftShiftResults s lo).1
  obtain ⟨u, hu, hhi, hnzu, hfu⟩ := (leftShiftResults t hi).2
  have hcarry : t.flags.c = decide (128 ≤ (s.reg lo).toNat) := hnzt.c
  have hkeepLo : u.reg lo = t.reg lo := hfu.regs lo (by simpa using hne.symm)
  have hkeepHi : t.reg hi = s.reg hi := hft.regs hi (by simpa using hne)
  refine ⟨t, u, ht, hu, ?_, hnzu.c.trans hcarry⟩
  rw [hhi, hkeepLo, hlo, hkeepHi, hcarry]
  have hlt := (s.reg lo).isLt
  by_cases h : 128 ≤ (s.reg lo).toNat
  · simp only [h, decide_true, Bool.toNat_true]
    omega
  · simp only [h, decide_false, Bool.toNat_false]
    omega

end Sys2Proof.Machine
end

section
/-! # Load and store (42_load_store.md)

LDI and LDM are one register write and STI one byte store; a Step at LDI or STI is that between an advance and a charge. -/

namespace Sys2Proof

/-- A family's byte is named by its block and its selector (R72). -/
theorem eq_append_sel {ob : Byte} {code : BitVec 5} {k : Sel} (h : ob.toNat = 8 * code.toNat + k.toNat) :
    ob = code ++ k := by
  refine BitVec.eq_of_toNat_eq ?_
  rw [BitVec.toNat_append, ← Nat.shiftLeft_add_eq_or_of_lt k.isLt, Nat.shiftLeft_eq]
  omega

end Sys2Proof

namespace Sys2Proof.Machine

/-! ## Frames of one register write and of one store -/

theorem registerFrame_setReg (s : State) (r : Sel) (v : Byte) : RegisterFrame [r] s (s.setReg r v) :=
  registerFrame_of_sameRegsBut (sameRegsBut_setReg s r v)

theorem sameMemoryBut_write (s : State) (a : Addr) (v : Byte) : SameMemoryBut [a] s (s.write a v) := by
  intro b hb
  exact Memory.read_write_ne s.mem v (List.ne_of_not_mem_cons hb)

theorem stackFrame_write (s : State) (a : Addr) (v : Byte) : StackFrame [] [a] s (s.write a v) :=
  ⟨fun _ _ => rfl, sameMemoryBut_write s a v, rfl, rfl, rfl, rfl⟩

/-! ## A Step at a byte of a given family -/

/-- The byte at PC selects its family's instruction in every configuration (R79). -/
theorem State.lookup_of_given_family {s : State} {code : BitVec 5} {mn : Mnemonic} {k : Sel}
    (hrow : (.family code, mn) ∈ givenRows) (hu : mn ≠ .unused)
    (hop : (s.byteAt 0).toNat = 8 * code.toNat + k.toNat) :
    selOf s.opcode = k ∧ s.config.lookup s.opcode = .ok (s.config.definedDescriptor mn s.opcode) := by
  rw [State.byteAt_zero] at hop
  rw [eq_append_sel hop]
  exact ⟨selOf_family code k, s.config.lookup_given hrow hu k⟩

/-- The next opcode is the stored byte where the store was to the next address, else the byte that stood there (R66). -/
theorem State.opcode_of_stored {s t : State} {a p : Addr} {v : Byte} (hpc : t.pc = p) (hread : t.read a = v)
    (hmem : SameMemoryBut [a] s t) : t.opcode = if a = p then v else s.read p := by
  rw [State.opcode, hpc]
  split
  · next heq => rw [← heq, hread]
  · next hne => exact hmem p (by simpa using Ne.symm hne)

/-! ## The obligations -/

/-- Settles O49, by the frames of a register write and of a store. -/
theorem loadAndStoreResults : Obligations.LoadAndStoreResults := by
  intro s r
  refine ⟨fun imm => ?_, fun a => ?_, fun a => ?_⟩
  · exact ⟨_, rfl, s.reg_setReg_same r imm, rfl, registerFrame_setReg s r imm⟩
  · exact ⟨_, rfl, s.reg_setReg_same r (s.read a), rfl, registerFrame_setReg s r (s.read a)⟩
  · exact ⟨_, rfl, s.mem.read_write_same a (s.reg r), rfl, rfl, rfl, stackFrame_write s a (s.reg r)⟩

/-- Settles O35: the bytes $E0 to $E7 are LDI's in every configuration, and its handler loads the operand byte. -/
theorem ldiStep : Obligations.LdiStep := by
  intro s r hop hfit
  obtain ⟨rfl, hl⟩ := State.lookup_of_given_family (code := 0b11100#5) (mn := .ldi) (by decide) (by decide) hop
  obtain ⟨u, hu, hreg, hflags, hframe⟩ := (loadAndStoreResults (s.advance 2) (selOf s.opcode)).1 (s.byteAt 1)
  have hstep := step_next.2 ⟨_, u, hl, hfit, hu, rfl⟩
  exact ⟨_, hstep, hreg, hflags, hframe.regs, hframe.memory, hframe.sp, hframe.q, hframe.pc, step_charged hstep hl⟩

/-- Settles O36: the bytes $E8 to $EF are STI's in every configuration, its address is read before its handler stores,
and the next fetch reads the memory stored into. -/
theorem stiStep : Obligations.StiStep := by
  intro s r a hop hfit ha
  obtain ⟨rfl, hl⟩ := State.lookup_of_given_family (code := 0b11101#5) (mn := .sti) (by decide) (by decide) hop
  have haddr : a = wordOf (s.byteAt 1) (s.byteAt 2) := BitVec.eq_of_toNat_eq (ha.trans (wordOf_toNat ..).symm)
  obtain rfl : a = absAddr (s.operandBytes (s.config.definedDescriptor .sti s.opcode)) :=
    haddr.trans (s.absAddr_operandBytes rfl).symm
  obtain ⟨u, hu, hread, hflags, hsp, hpc, hframe⟩ := (loadAndStoreResults (s.advance 3) (selOf s.opcode)).2.2 _
  have hstep := step_next.2 ⟨_, u, hl, hfit, hu, rfl⟩
  exact ⟨_, hstep, hread, hframe.memory, hframe.regs, hflags, hsp, hframe.q, hpc, step_charged hstep hl,
    State.opcode_of_stored hpc hread hframe.memory⟩

end Sys2Proof.Machine
end

section
/-! # Control, stack, I/O lines and status (43_control_io.md)

A branch is one conditional write of PC and a line instruction one bit of Q. PUSH and CALL are byte pushes, POP and RET
byte pops: their frames are composed of the frame of one store, and where SP ends is said for every instruction by
`exec_sp`. -/

namespace Sys2Proof

/-! ## The bytes of a return address (R56, R178) -/

theorem hiByte_toNat (a : Addr) : (hiByte a).toNat = a.toNat / 256 := by
  have hlt := a.isLt
  rw [hiByte, BitVec.extractLsb'_toNat, Nat.shiftRight_eq_div_pow]
  omega

theorem loByte_toNat (a : Addr) : (loByte a).toNat = a.toNat % 256 :=
  BitVec.extractLsb'_toNat ..

end Sys2Proof

namespace Sys2Proof.Machine

/-! ## Branches (R170–R173, R184) -/

/-- A branch writes PC only: the target if its condition holds, else the address PC has already. -/
theorem State.branchIf_eq (s : State) {p : Bool} {cond : Prop} [Decidable cond] (h : p = true ↔ cond) (a : Addr) :
    s.branchIf p a = { s with pc := if cond then a else s.pc } := by
  cases p with
  | true => rw [if_pos (h.1 rfl)]; rfl
  | false => rw [if_neg fun hc => Bool.false_ne_true (h.2 hc)]; rfl

theorem State.line_eq_true_iff (s : State) (q : Sel) : s.line q = true ↔ s.q.toNat / 2 ^ q.toNat % 2 = 1 := by
  rw [State.line, BitVec.getLsbD, Nat.testBit_eq_decide_div_mod_eq, decide_eq_true_iff]

/-! ## Lines of Q (R174, R175) -/

theorem getLsbD_lineMask : ∀ k q : Sel, (lineMask q).getLsbD k.toNat = decide (k = q) := by
  decide

theorem getLsbD_or_lineMask (v : Byte) (k q : Sel) :
    (v ||| lineMask q).getLsbD k.toNat = if k = q then true else v.getLsbD k.toNat := by
  rw [BitVec.getLsbD_or, getLsbD_lineMask]
  by_cases h : k = q <;> simp [h]

theorem getLsbD_and_not_lineMask (v : Byte) (k q : Sel) :
    (v &&& ~~~lineMask q).getLsbD k.toNat = if k = q then false else v.getLsbD k.toNat := by
  have hk : k.toNat < 8 := k.isLt
  rw [BitVec.getLsbD_and, BitVec.getLsbD_not, getLsbD_lineMask]
  by_cases h : k = q <;> simp [h, hk]

/-! ## The stack (R24, R25, R176–R179) -/

theorem exec_sp_toNat {i : Instr} {s t : State} (h : exec i s = .next t) :
    t.sp.toNat = (s.sp.toNat + i.mnemonic.spChange.toNat) % 256 := by
  rw [exec_sp h, BitVec.toNat_add]

/-- The byte pushed next does not cover the one pushed before. -/
theorem stackAddr_ne_pred (sp : Byte) : stackAddr sp ≠ stackAddr (sp - 1#8) := by
  rw [Ne, stackAddr_inj]
  bv_omega

theorem StackFrame.trans {rs rs' : List Sel} {as bs : List Addr} {s t u : State} (h : StackFrame rs as s t)
    (h' : StackFrame rs' bs t u) : StackFrame (rs ++ rs') (as ++ bs) s u where
  regs k hk := by
    obtain ⟨hrs, hrs'⟩ := not_or.1 (List.mem_append.not.1 hk)
    exact (h'.regs k hrs').trans (h.regs k hrs)
  memory a ha := by
    obtain ⟨has, hbs⟩ := not_or.1 (List.mem_append.not.1 ha)
    exact (h'.memory a hbs).trans (h.memory a has)
  q := h'.q.trans h.q
  rest := ⟨h'.rest.lastPc.trans h.rest.lastPc, h'.rest.cycles.trans h.rest.cycles, h'.rest.config.trans h.rest.config⟩

theorem stackFrame_setSp (s : State) (v : Byte) : StackFrame [] [] s (s.setSp v) :=
  ⟨fun _ _ => rfl, fun _ _ => rfl, rfl, rfl, rfl, rfl⟩

theorem stackFrame_setPc (s : State) (a : Addr) : StackFrame [] [] s (s.setPc a) :=
  ⟨fun _ _ => rfl, fun _ _ => rfl, rfl, rfl, rfl, rfl⟩

theorem stackFrame_pushByte (s : State) (v : Byte) : StackFrame [] [stackAddr s.sp] s (s.pushByte v) :=
  (stackFrame_write s _ v).trans (stackFrame_setSp _ _)

theorem stackFrame_popByte (s : State) : StackFrame [] [] s s.popByte :=
  stackFrame_setSp s _

theorem RegisterFrame.stackFrame {rs : List Sel} {s t : State} (h : RegisterFrame rs s t) : StackFrame rs [] s t :=
  ⟨h.regs, fun a _ => h.memory a, h.q, h.rest⟩

/-! ## Flag masks (R180–R183) -/

theorem Flags.assign_true (f : Flags) (mask : Byte) : f.assign mask true =
    { c := mask.getLsbD 0 || f.c, z := mask.getLsbD 1 || f.z, i := mask.getLsbD 2 || f.i, d := mask.getLsbD 3 || f.d,
      b := mask.getLsbD 4 || f.b, v := mask.getLsbD 6 || f.v, s := mask.getLsbD 7 || f.s } := by
  simp [Flags.assign]

theorem Flags.assign_false (f : Flags) (mask : Byte) : f.assign mask false =
    { c := !mask.getLsbD 0 && f.c, z := !mask.getLsbD 1 && f.z, i := !mask.getLsbD 2 && f.i,
      d := !mask.getLsbD 3 && f.d, b := !mask.getLsbD 4 && f.b, v := !mask.getLsbD 6 && f.v,
      s := !mask.getLsbD 7 && f.s } := by
  simp [Flags.assign]

/-- Bit 5 of a mask names no flag (R181). -/
theorem Flags.assign_and_not_bit5 (f : Flags) (mask : Byte) (b : Bool) :
    f.assign (mask &&& 0xDF#8) b = f.assign mask b := by
  simp [Flags.assign]

/-- From a cleared Carry both values of `CMP_UNEQUAL` give the same (R183). -/
theorem compareEqual_carry_false (u : CmpUnequal) (a b : Byte) : compareEqual u a b false = decide (a = b) := by
  by_cases h : a = b
  · rw [compareEqual_of_eq u false h, decide_eq_true h]
  · rw [decide_eq_false h]
    cases u with
    | clear => exact compareEqual_clear_of_ne false h
    | keep => exact compareEqual_keep_of_ne false h

theorem exec_cmp_carry_iff {x y : Sel} {s t : State} (h : exec (.cmp x y) s = .next t) (hc : s.flags.c = false) :
    t.flags.c = true ↔ s.reg x = s.reg y := by
  cases h
  rw [State.setFlags_flags, Flags.setC_c, hc, compareEqual_carry_false, decide_eq_true_iff]

/-! ## The obligations -/

/-- Settles O50: LBR writes PC, and each conditional branch is one `branchIf`. -/
theorem branchResults : Obligations.BranchResults :=
  fun s a => ⟨rfl, congrArg _ (s.branchIf_eq .rfl a), congrArg _ (s.branchIf_eq .rfl a),
    fun q => congrArg _ (s.branchIf_eq (s.line_eq_true_iff q) a)⟩

/-- Settles O51, by the bits of a line's mask. -/
theorem lineResults : Obligations.LineResults :=
  fun s q => ⟨⟨_, rfl, fun k => getLsbD_or_lineMask s.q k q, rfl⟩,
    ⟨_, rfl, fun k => getLsbD_and_not_lineMask s.q k q, rfl⟩⟩

/-- Settles O52: one byte pushed. -/
theorem pushResult : Obligations.PushResult :=
  fun s r => ⟨_, rfl, s.mem.read_write_same _ (s.reg r), exec_sp_toNat (i := .push r) rfl, rfl, rfl,
    stackFrame_pushByte s (s.reg r)⟩

/-- Settles O53: the byte at the new top of the stack is a result written to the register. -/
theorem popResult : Obligations.PopResult := by
  intro s r
  obtain ⟨hnz, hframe⟩ := s.popByte.setResult_frame r s.popByte.topByte
  exact ⟨_, rfl, exec_sp_toNat (i := .pop r) rfl, State.reg_setResult_same .., hnz, rfl,
    (stackFrame_popByte s).trans hframe.stackFrame⟩

/-- Settles O54: two bytes pushed, at two addresses. -/
theorem callResult : Obligations.CallResult := by
  intro s a
  refine ⟨_, rfl, rfl, ?_, ?_, exec_sp_toNat (i := .call a) rfl, rfl,
    ((stackFrame_pushByte s _).trans (stackFrame_pushByte _ _)).trans (stackFrame_setPc _ a)⟩
  · rw [State.setPc_read, State.read_pushByte, State.pushByte_sp, if_neg (stackAddr_ne_pred s.sp),
      State.read_pushByte, if_pos rfl, hiByte_toNat]
  · rw [State.setPc_read, State.read_pushByte, State.pushByte_sp, if_pos rfl, loByte_toNat]

/-- Settles O55: two bytes popped, the low one first. -/
theorem returnResult : Obligations.ReturnResult := by
  intro s
  refine ⟨_, rfl, ?_, exec_sp_toNat (i := .ret) rfl, rfl,
    ((stackFrame_popByte s).trans (stackFrame_popByte _)).trans (stackFrame_setPc _ _)⟩
  rw [exec_ret_pc rfl, wordOf_toNat]

/-- Settles O56, by what a mask assigns. -/
theorem statusMaskResults : Obligations.StatusMaskResults := by
  intro s mask
  have hexec {f g : Flags} (h : f = g) := congrArg (Host.Outcome.next (φ := Fault) (ρ := Refusal) ∘ s.setFlags) h
  exact ⟨hexec (s.flags.assign_true mask), hexec (s.flags.assign_false mask),
    hexec (s.flags.assign_and_not_bit5 mask true).symm, hexec (s.flags.assign_and_not_bit5 mask false).symm⟩

/-- Settles O57: POP's new SP is PUSH's old one, and its byte the one PUSH stored. -/
theorem pushThenPop : Obligations.PushThenPop := by
  intro s r r'
  obtain ⟨t, ht, hstored, -, -, -, hft⟩ := pushResult s r
  obtain ⟨u, hu, -, hloaded, -, -, hfu⟩ := popResult t r'
  have hsp : u.sp = s.sp := by
    rw [exec_sp hu, exec_sp ht]
    exact neg_add_cancel_right s.sp 1#8
  have hframe : StackFrame [r'] [stackAddr s.sp] s u := hft.trans hfu
  refine ⟨t, u, ht, hu, ?_, hsp, ?_, hframe.regs, hframe.memory⟩
  · rw [hloaded, hsp, hstored]
  · rw [hfu.memory _ List.not_mem_nil, hstored]

/-- Settles O58: RET reads the two addresses CALL wrote, and the two bytes are the return address. -/
theorem callThenReturn : Obligations.CallThenReturn := by
  intro s t u a hcall hsp hhi hlo
  obtain ⟨t', ht', -, hhi', hlo', -⟩ := callResult s a
  obtain rfl : t' = t := Host.Outcome.next.inj (ht'.symm.trans hcall)
  obtain ⟨w, hw, hpc, -, hflags, -⟩ := returnResult u
  have husp : u.sp = s.sp + -2#8 := hsp.trans (exec_sp hcall)
  have hhigh : u.sp + 2#8 = s.sp := by bv_omega
  have hlow : u.sp + 1#8 = s.sp - 1#8 := by bv_omega
  refine ⟨w, hw, BitVec.eq_of_toNat_eq ?_, (exec_sp hw).trans hhigh, hflags⟩
  rw [hpc, hhigh, hlow, hhi, hlo, hhi', hlo', Nat.div_add_mod']

/-- Settles O37: the bytes $48 to $4F are POP's in every configuration, and its handler runs after PC has advanced by 1. -/
theorem popStep : Obligations.PopStep := by
  intro s r hop hfit
  obtain ⟨rfl, hl⟩ := State.lookup_of_given_family (code := 0b01001#5) (mn := .pop) (by decide) (by decide) hop
  obtain ⟨u, hu, hsp, hreg, hnz, hpc, hframe⟩ := popResult (s.advance 1) (selOf s.opcode)
  have hstep := step_next.2 ⟨_, u, hl, hfit, hu, rfl⟩
  rw [State.byteAt_zero]
  exact ⟨_, hstep, hsp, hreg, hnz, hframe.regs, fun a => hframe.memory a List.not_mem_nil, hframe.q, hpc,
    step_charged hstep hl⟩

/-- Settles O60: CMP starts from a cleared Carry, so LBRC sees equality and nothing else. -/
theorem clearedCarryMakesCompareDefinite : Obligations.ClearedCarryMakesCompareDefinite := by
  intro s x y a
  obtain ⟨u, hu, -, -, -, -, hframe⟩ := compareResult (s.setFlags (s.flags.assign 0x01#8 false)) x y
  have hcarry : u.flags.c = true ↔ s.reg x = s.reg y := (exec_cmp_carry_iff hu rfl :)
  refine ⟨_, u, _, rfl, hu, congrArg Host.Outcome.next (u.branchIf_eq hcarry a), ?_⟩
  rw [hframe.pc, State.setFlags_pc]

end Sys2Proof.Machine
end

section
/-! # Reset and the host (70_reset_and_hazards.md)

Each host operation is one write of the state, or one sequence stored and a write of PC, so what it changes is what that
write is read back as and what it leaves alone holds by the write's definition. -/

namespace Sys2Proof.Machine

/-! ## Program loading (R225) -/

theorem State.loadProgram_within (s : State) {origin : Addr} {blob : List Byte}
    (h : origin.toNat + blob.length ≤ 65536) :
    s.loadProgram origin blob = .next { s with pc := origin, mem := s.mem.writeBytes origin blob } := by
  rw [State.loadProgram, s.storeBytes_within h]
  rfl

/-- Byte `k` of a sequence that fits below $10000 is read back at the number `a + k`. -/
theorem Memory.read_writeBytes_at (m : Memory) {a : Addr} {vs : List Byte} (h : a.toNat + vs.length ≤ 65536)
    {k : Nat} (hk : k < vs.length) :
    (m.writeBytes a vs).read (BitVec.ofNat 16 (a.toNat + k)) = vs.getD k 0#8 := by
  have haddr : (BitVec.ofNat 16 (a.toNat + k)).toNat = a.toNat + k := Nat.mod_eq_of_lt (by omega)
  rw [Memory.read_writeBytes_within m a _ vs h, haddr, if_pos (by omega), Nat.add_sub_cancel_left]

/-- A sequence that fits below $10000 leaves the bytes before and after it alone. -/
theorem Memory.read_writeBytes_outside (m : Memory) {a b : Addr} {vs : List Byte} (h : a.toNat + vs.length ≤ 65536)
    (hb : b.toNat < a.toNat ∨ a.toNat + vs.length ≤ b.toNat) : (m.writeBytes a vs).read b = m.read b := by
  rw [Memory.read_writeBytes_within m a b vs h, if_neg (by omega)]

/-! ## The mask of one flag (R26) -/

theorem getLsbD_flagMask (bit : Sel) {k : Nat} (hk : k < 8) : (flagMask bit).getLsbD k = decide (bit.toNat = k) := by
  have hlit := getLsbD_lineMask (BitVec.ofNat 3 k) bit
  have hnat : (BitVec.ofNat 3 k).toNat = k := Nat.mod_eq_of_lt hk
  rw [hnat] at hlit
  rw [flagMask, ← lineMask, hlit]
  exact decide_eq_decide.2 (by bv_omega)

/-- The mask of a bit number assigns the flag R26 gives that number; 5 is the number of none. -/
theorem Flags.assign_flagMask (f : Flags) (bit : Sel) (v : Bool) : f.assign (flagMask bit) v =
    { c := if bit.toNat = 0 then v else f.c, z := if bit.toNat = 1 then v else f.z
      i := if bit.toNat = 2 then v else f.i, d := if bit.toNat = 3 then v else f.d
      b := if bit.toNat = 4 then v else f.b, v := if bit.toNat = 6 then v else f.v
      s := if bit.toNat = 7 then v else f.s } := by
  simp only [Flags.assign, getLsbD_flagMask, Nat.reduceLT, decide_eq_true_eq]

theorem State.hostWriteFlag_flags (s : State) (bit : Sel) (b : Bool) :
    (s.hostWriteFlag bit b).flags = s.flags.assign (flagMask bit) b :=
  rfl

/-! ## The obligations -/

/-- Settles O11: the program is one sequence stored within the address space, read back inside it and outside it. -/
theorem loadProgramPlacesBytes : Obligations.LoadProgramPlacesBytes :=
  fun s _ _ h => ⟨_, s.loadProgram_within h, rfl, fun _ hk => s.mem.read_writeBytes_at h hk,
    fun _ hb => s.mem.read_writeBytes_outside h hb, rfl⟩

/-- Settles O10: Reset writes PC only, with the word at the vector. -/
theorem hostResetLoadsVectorOnly : Obligations.HostResetLoadsVectorOnly :=
  fun s => ⟨rfl, s.mem.readWord_toNat resetVector⟩

/-- Settles O12, by read after write and by the flag each bit number names. -/
theorem hostWritesOneThing : Obligations.HostWritesOneThing := by
  intro s
  refine ⟨fun _ => rfl, fun r k v => ⟨s.reg_setReg r k v, rfl⟩, fun _ => ⟨rfl, rfl⟩, fun b => ?_, fun _ _ => rfl,
    fun a b v => ⟨s.read_write a b v, rfl⟩⟩
  simp [State.hostWriteFlag_flags, Flags.assign_flagMask]

end Sys2Proof.Machine
end

section
/-! # The invariant and the configuration (10_state.md section 5, 20_memory.md section 1, 30_encoding.md section 3)

The invariant holds at reset and every Step keeps it: handlers write memory through `Memory.write` only, and nothing
writes the configuration. -/

namespace Sys2Proof.Machine

/-! ## What a Step and the host's loads keep -/

/-- Neither the advance, nor a handler, nor the charge writes the configuration (R36). -/
theorem step_config {s t : State} (h : step s = .next t) : t.config = s.config := by
  obtain ⟨d, u, hl, -⟩ := step_next.1 h
  exact (step_charged h hl).config

/-- The advance and the charge leave memory alone, and the handler keeps its form. -/
theorem step_mem_wf {s t : State} (h : step s = .next t) (hm : s.mem.wf = true) : t.mem.wf = true := by
  obtain ⟨d, u, -, -, hu, rfl⟩ := step_next.1 h
  have hmem : u.mem.wf = true := exec_mem_wf hu hm
  exact hmem

theorem State.storeBytes_config {s t : State} {a : Addr} {vs : List Byte} (h : s.storeBytes a vs = .next t) :
    t.config = s.config := by
  unfold State.storeBytes at h
  split at h
  · cases h
    rfl
  · cases h

theorem State.loadProgram_config {s t : State} {a : Addr} {vs : List Byte} (h : s.loadProgram a vs = .next t) :
    t.config = s.config := by
  unfold State.loadProgram at h
  split at h
  · next u hu =>
    cases h
    have hconfig : u.config = s.config := State.storeBytes_config hu
    exact hconfig
  · cases h
  · cases h

theorem State.hostWriteReg_config (s : State) (reg : HostReg) (v : Byte) :
    (s.hostWriteReg reg v).config = s.config := by
  cases reg <;> rfl

/-! ## Reset -/

theorem State.reset_reg (r : Sel) : State.reset.reg r = 0#8 := by
  simp [State.reg, State.reset]

/-- The word at the reset vector of a memory never written is 0 (R51, R221). -/
theorem State.reset_eq_construct : State.reset = (State.construct Config.launch []).hostReset :=
  rfl

/-! ## The obligations -/

/-- Settles O3: the memory by the handlers' writes, the opcode map because no Step writes the configuration. -/
theorem stepKeepsInvariant : Obligations.StepKeepsInvariant :=
  fun _ _ hs h => ⟨step_mem_wf h hs.memWf, (step_config h).symm ▸ hs.admitted⟩

/-- Settles O4: no operation writes the configuration. -/
theorem configurationNeverChanges : Obligations.ConfigurationNeverChanges :=
  ⟨fun _ _ h => step_config h, fun s => ⟨rfl, fun _ => rfl, s.hostWriteReg_config, fun _ _ => rfl, fun _ _ => rfl,
    fun _ _ _ h => State.loadProgram_config h⟩⟩

/-- Settles O1: the values of `State.reset`, which is what construction and Reset give. -/
theorem resetStateValues : Obligations.ResetStateValues :=
  ⟨State.reset_reg, rfl, rfl, rfl, rfl, rfl, rfl, Memory.read_nil, State.reset_eq_construct⟩

/-- Settles O2: the configuration the machine is built with is admitted and complete. -/
theorem resetMeetsInvariant : Obligations.ResetMeetsInvariant :=
  ⟨⟨State.reset_mem_wf, Config.launch_admitted⟩, Config.launch_complete⟩

end Sys2Proof.Machine
end

section
/-! # The canonical form of memory (20_memory.md section 1)

A canonical memory lists exactly the keys that do not read 0, each with the byte it reads, in rising order; so what it
reads as determines it. -/

namespace Sys2Proof.Machine

/-! ## Cells and reads -/

theorem Memory.mem_of_readNat_ne_zero {m : Memory} {k : Nat} (h : m.readNat k ≠ 0#8) : (k, m.readNat k) ∈ m := by
  induction m with
  | nil => exact absurd rfl h
  | cons cell m ih =>
    by_cases hk : cell.1 = k
    · subst hk
      simp [Memory.readNat]
    · simp only [Memory.readNat, hk, if_false] at h ⊢
      exact List.mem_cons_of_mem _ (ih h)

/-- With rising keys a listed cell is the only one of its key, so it is what the key reads as. -/
theorem Memory.readNat_of_mem {m : Memory} (hm : m.Pairwise fun a b => a.1 < b.1) {cell : Host.Cell}
    (h : cell ∈ m) : m.readNat cell.1 = cell.2 := by
  induction m with
  | nil => simp at h
  | cons c m ih =>
    obtain ⟨hc, hm⟩ := List.pairwise_cons.1 hm
    rcases List.mem_cons.1 h with rfl | h
    · simp [Memory.readNat]
    · simp [Memory.readNat, (hc cell h).ne, ih hm h]

theorem Memory.mem_iff_of_wf {m : Memory} (hm : m.wf = true) (cell : Host.Cell) :
    cell ∈ m ↔ cell.2 ≠ 0#8 ∧ ∃ a : Addr, a.toNat = cell.1 ∧ m.read a = cell.2 := by
  obtain ⟨hkeys, hcells⟩ := m.wf_iff.1 hm
  constructor
  · intro h
    obtain ⟨hlt, hne⟩ := hcells cell h
    have hkey : (BitVec.ofNat 16 cell.1).toNat = cell.1 := Nat.mod_eq_of_lt hlt
    refine ⟨hne, BitVec.ofNat 16 cell.1, hkey, ?_⟩
    rw [Memory.read, hkey, Memory.readNat_of_mem hkeys h]
  · obtain ⟨k, v⟩ := cell
    rintro ⟨hne, a, rfl, rfl⟩
    exact Memory.mem_of_readNat_ne_zero hne

/-- A canonical memory is determined by what it reads as (R51). -/
theorem Memory.eq_of_read_eq {m n : Memory} (hm : m.wf = true) (hn : n.wf = true)
    (h : ∀ a : Addr, m.read a = n.read a) : m = n := by
  have hcells : ∀ cell, cell ∈ m ↔ cell ∈ n := fun cell => by
    simp only [Memory.mem_iff_of_wf hm, Memory.mem_iff_of_wf hn, h]
  have hmk := (m.wf_iff.1 hm).1
  have hnk := (n.wf_iff.1 hn).1
  have hirrefl : Std.Irrefl fun a b : Host.Cell => a.1 < b.1 := ⟨fun _ => lt_irrefl _⟩
  have hperm : m.Perm n := (List.perm_ext_iff_of_nodup hmk.nodup hnk.nodup).2 hcells
  exact hperm.eq_of_pairwise (fun _ _ _ _ hab hba => absurd hab hba.asymm) hmk hnk

/-! ## The obligation -/

/-- Settles O6: a write erases and inserts in order, and a canonical memory is determined by what it reads as. -/
theorem memoryFormIsCanonical : Obligations.MemoryFormIsCanonical :=
  ⟨fun _ a v hm => Memory.write_wf a v hm, fun _ _ hm hn h => Memory.eq_of_read_eq hm hn h⟩

end Sys2Proof.Machine
end

section
/-! # The encoder and the decoder (30_encoding.md)

Both read one table: the rows of R79 and, with an opcode map, those of R84. The encoder's pattern for an instruction is the
pattern of its mnemonic's row, and under an admitted map `identify` finds a byte's mnemonic in the row that holds it. So
a round trip is one row, and what is left is the fields of the opcode byte and of the operand bytes. -/

namespace Sys2Proof.Laws.OperandsReadBack

/-- The handler of its slot reads back the operands of any instruction (R72–R77). -/
theorem all : ∀ i : Instr, OperandsReadBack.Statement i
  | .nop => nop | .halt => halt | .ret => ret | .unused _ => unused _
  | .adr _ _ => adr _ _ | .sub _ _ => sub _ _ | .andR _ _ => andR _ _ | .orR _ _ => orR _ _
  | .xorR _ _ => xorR _ _ | .cmp _ _ => cmp _ _ | .ex _ _ => ex _ _
  | .adi _ _ => adi _ _ | .subi _ _ => subi _ _ | .ani _ _ => ani _ _ | .ori _ _ => ori _ _
  | .xri _ _ => xri _ _ | .ldi _ _ => ldi _ _ | .spsr _ => spsr _ | .cpsr _ => cpsr _
  | .adm _ _ => adm _ _ | .subm _ _ => subm _ _ | .ldm _ _ => ldm _ _ | .sti _ _ => sti _ _
  | .lbr _ => lbr _ | .lbrc _ => lbrc _ | .lbrz _ => lbrz _ | .lbrq _ _ => lbrq _ _ | .call _ => call _
  | .inc _ => inc _ | .dec _ => dec _ | .shl _ => shl _ | .shlc _ => shlc _ | .shr _ => shr _
  | .shrc _ => shrc _ | .setq _ => setq _ | .resetq _ => resetq _ | .push _ => push _ | .pop _ => pop _

end Sys2Proof.Laws.OperandsReadBack

namespace Sys2Proof

/-! ## One table (R79, R84, R85) -/

/-- The rows of the configured table: the given ones, and the map's where there is one. -/
def Config.rows (c : Config) : List (Pattern × Mnemonic) :=
  givenRows ++ (c.opcodeMap.map OpcodeMap.rows).getD []

/-- A byte is bound to an instruction exactly when it belongs to a row of that instruction. -/
theorem Config.identify_defined_iff {c : Config} (hc : c.admitted = true) {ob : Byte} {mn : Mnemonic}
    (hu : mn ≠ .unused) : c.identify ob = .ok mn ↔ ∃ p, (p, mn) ∈ c.rows ∧ p.hits ob = true := by
  constructor
  · intro h
    unfold Config.identify at h
    split at h
    · next mn' hrow =>
      cases h
      obtain ⟨p, hp, hh⟩ := findRow_some hrow
      exact ⟨p, List.mem_append_left _ hp, hh⟩
    · split at h
      · cases h
      · next m hm =>
        cases hrow : findRow ob m.rows with
        | none => simp [hrow, hu.symm] at h
        | some mn' =>
          obtain rfl : mn' = mn := by simpa [hrow] using h
          obtain ⟨p, hp, hh⟩ := findRow_some hrow
          exact ⟨p, by simp [Config.rows, hm, hp], hh⟩
  · rintro ⟨p, hp, hh⟩
    rcases List.mem_append.1 hp with hp | hp
    · exact Config.identify_given (findRow_of_mem givenRows_pairwise hp hh)
    · cases hm : c.opcodeMap with
      | none => simp [hm] at hp
      | some m => exact Config.identify_assigned hm hc (by simpa [hm] using hp) hh

/-- The encoder's pattern is that of the instruction's row. -/
theorem Config.patternOf_eq_some_iff {c : Config} {i : Instr} (hu : i.mnemonic ≠ .unused) {p : Pattern} :
    c.patternOf i = some p ↔ (p, i.mnemonic) ∈ c.rows := by
  cases hm : c.opcodeMap <;> cases i with
  | unused ob => exact absurd rfl hu
  | _ => simp [Config.patternOf, Config.rows, hm, Instr.mnemonic, givenRows, OpcodeMap.rows, eq_comm]

/-- An instruction of a slot that is not unused is the machine's exactly when it has an opcode byte (R84, R85). -/
theorem Instr.wellFormed_eq_isSome_patternOf (c : Config) {i : Instr} (hu : i.mnemonic ≠ .unused) :
    i.wellFormed c = (c.patternOf i).isSome := by
  cases i with
  | unused ob => exact absurd rfl hu
  | _ => simp [Instr.wellFormed, Config.patternOf, Instr.mnemonic, Mnemonic.given]

/-- The decoder has the slot of an unused byte exactly where well-formedness asks for it (R80). -/
theorem Config.isSome_unusedSlot (c : Config) (ob : Byte) : (c.unusedSlot ob).isSome = c.unusedConfigured ob := by
  unfold Config.unusedSlot Config.unusedConfigured
  cases isGivenUnused ob <;> simp

theorem Instr.length_operands (c : Config) {i : Instr} (hu : i.mnemonic ≠ .unused) :
    (i.operands c).length + 1 = i.mnemonic.mode.length := by
  cases i with
  | unused ob => exact absurd rfl hu
  | _ => rfl

/-- An unused slot's encoding is as long as the slot (R80). -/
theorem Instr.length_operands_unused {c : Config} {ob : Byte} {u : UnusedSlot} (hs : c.unusedSlot ob = some u) :
    ((Instr.unused ob).operands c).length + 1 = u.mode.length := by
  have hlen := Laws.EncodedLength.unused ob c
  simpa [hs] using hlen

/-! ## Decoding what was encoded -/

/-- A well-formed instruction's opcode byte has its slot's descriptor, as long as its encoding (R71, R78). -/
theorem Instr.exists_lookup_of_wellFormed {c : Config} {i : Instr} (hc : c.admitted = true)
    (hw : i.wellFormed c = true) :
    ∃ p d, c.patternOf i = some p ∧ c.lookup (p.byte i.selector) = .ok d ∧ d.name = i.mnemonic ∧
      (i.operands c).length + 1 = d.length := by
  by_cases hu : i.mnemonic = .unused
  · obtain ⟨ob, rfl⟩ : ∃ ob, i = .unused ob := by
      cases i with
      | unused ob => exact ⟨ob, rfl⟩
      | _ => cases hu
    obtain ⟨hunused, hconf⟩ : c.isUnused ob = true ∧ c.unusedConfigured ob = true := by
      simpa [Instr.wellFormed] using hw
    obtain ⟨u, hs⟩ := Option.isSome_iff_exists.1 ((c.isSome_unusedSlot ob).trans hconf)
    exact ⟨.single ob, u.descriptor ob, rfl, Config.lookup_unused ((c.identify_unused_iff ob).2 hunused) hs, rfl,
      Instr.length_operands_unused hs⟩
  · rw [Instr.wellFormed_eq_isSome_patternOf c hu] at hw
    obtain ⟨p, hp⟩ := Option.isSome_iff_exists.1 hw
    have hid : c.identify (p.byte i.selector) = .ok i.mnemonic :=
      (Config.identify_defined_iff hc hu).2 ⟨p, (Config.patternOf_eq_some_iff hu).1 hp, p.hits_byte _⟩
    exact ⟨p, _, hp, Config.lookup_defined hid hu, rfl, Instr.length_operands c hu⟩

/-- A descriptor's operand bytes are taken off the front of what follows the opcode byte (R71). -/
theorem decode_append {c : Config} {ob : Byte} {d : Descriptor} (h : c.lookup ob = .ok d) {op : List Byte}
    (hlen : op.length + 1 = d.length) (rest : List Byte) :
    decode c (ob :: (op ++ rest)) = .ok (d.name.instr ob op, rest) := by
  have hop : op.length = d.length - 1 := by omega
  rw [decode_of_lookup h (by simp [hop]), List.take_left' hop, List.drop_left' hop]

/-! ## Encoding what was decoded -/

theorem exists_lookup_of_decode {c : Config} {i : Instr} {bytes rest : List Byte}
    (h : decode c bytes = .ok (i, rest)) :
    ∃ ob op d, bytes = ob :: (op ++ rest) ∧ c.lookup ob = .ok d ∧ op.length + 1 = d.length ∧
      i = d.name.instr ob op := by
  cases bytes with
  | nil => cases h
  | cons ob tail =>
    cases hl : c.lookup ob with
    | error e => simp [decode, hl] at h
    | ok d =>
      obtain ⟨hpos, -⟩ := Config.lookup_length_bounds hl
      by_cases hshort : tail.length < d.length - 1
      · simp [decode, hl, hshort] at h
      · obtain ⟨rfl, rfl⟩ := Prod.mk.inj (Except.ok.inj ((decode_of_lookup hl (Nat.not_lt.1 hshort)).symm.trans h))
        refine ⟨ob, tail.take (d.length - 1), d, by rw [List.take_append_drop], hl, ?_, rfl⟩
        rw [List.length_take_of_le (Nat.not_lt.1 hshort), Nat.sub_add_cancel hpos]

/-- An instruction encoded in a family takes its selector from the opcode byte (R72, R73). -/
theorem Mnemonic.selector_instr {c : Config} {mn : Mnemonic} {ob : Byte} {op : List Byte} {code : BitVec 5}
    (h : c.patternOf (mn.instr ob op) = some (.family code)) : (mn.instr ob op).selector = selOf ob := by
  cases mn with
  | adi | adm | subi | subm | ani | ori | xri | inc | dec | shl | shlc | shr | shrc | ldi | ldm | sti | lbrq | setq
  | resetq | push | pop => rfl
  | _ => simp [Mnemonic.instr, Config.patternOf] at h

/-- The encoder gives back the opcode byte an instruction was decoded from. -/
theorem Pattern.byte_selector_instr {c : Config} {mn : Mnemonic} {ob : Byte} {op : List Byte} {p : Pattern}
    (h : c.patternOf (mn.instr ob op) = some p) (hh : p.hits ob = true) : p.byte (mn.instr ob op).selector = ob := by
  cases p with
  | family code =>
    obtain rfl : ob.extractLsb' 3 5 = code := by simpa [Pattern.hits] using hh
    rw [Mnemonic.selector_instr h, Pattern.byte_family, family_selOf]
  | single b =>
    obtain rfl : ob = b := by simpa [Pattern.hits] using hh
    rfl

/-- What a slot decodes to is well-formed and encodes to the slot's byte and as many bytes as it has. -/
theorem encode_of_lookup {c : Config} {ob : Byte} {d : Descriptor} (hc : c.admitted = true) (hl : c.lookup ob = .ok d)
    (op : List Byte) :
    (d.name.instr ob op).wellFormed c = true ∧
      encode c (d.name.instr ob op) = some (ob :: (d.name.instr ob op).operands c) ∧
      ((d.name.instr ob op).operands c).length + 1 = d.length := by
  obtain ⟨-, -, hid⟩ := Config.lookup_ok hl
  by_cases hu : d.name = .unused
  · rw [hu] at hid ⊢
    have hunused := (c.identify_unused_iff ob).1 hid
    obtain ⟨u, hs, rfl⟩ := Config.lookup_of_isUnused hl hunused
    have hconf : c.unusedConfigured ob = true := by rw [← c.isSome_unusedSlot, hs]; rfl
    exact ⟨Bool.and_eq_true_iff.2 ⟨hunused, hconf⟩, rfl, Instr.length_operands_unused hs⟩
  · obtain ⟨p, hrow, hh⟩ := (Config.identify_defined_iff hc hu).1 hid
    have hname : (d.name.instr ob op).mnemonic ≠ .unused := by simpa using hu
    have hp : c.patternOf (d.name.instr ob op) = some p :=
      (Config.patternOf_eq_some_iff hname).2 (by simpa using hrow)
    refine ⟨?_, ?_, ?_⟩
    · rw [Instr.wellFormed_eq_isSome_patternOf c hname, hp]
      rfl
    · rw [encode, hp, Option.map_some, Pattern.byte_selector_instr hp hh]
    · rw [Instr.length_operands c hname, Mnemonic.mnemonic_instr, Config.lookup_length hl hu]

/-! ## The operand bytes encoded again (R74, R76, R77) -/

/-- The encoder writes 0 in the ignored bits 7 and 3 (R74). -/
theorem dualByte_dualX_dualY : ∀ v : Byte, dualByte (dualX v) (dualY v) = v &&& 0x77#8 := by
  decide

/-- The seven DUAL instructions are two bytes long (R74). -/
theorem Mnemonic.mode_of_dual {mn : Mnemonic} (h : mn ∈ [.adr, .sub, .andR, .orR, .xorR, .cmp, .ex]) :
    mn.mode = .imm := by
  cases mn with
  | adr | sub | andR | orR | xorR | cmp | ex => rfl
  | _ => simp at h

theorem Mnemonic.operands_instr_of_dual (c : Config) {mn : Mnemonic}
    (h : mn ∈ [.adr, .sub, .andR, .orR, .xorR, .cmp, .ex]) (ob v : Byte) :
    (mn.instr ob [v]).operands c = [v &&& 0x77#8] := by
  cases mn with
  | adr | sub | andR | orR | xorR | cmp | ex => exact congrArg (fun b => [b]) (dualByte_dualX_dualY v)
  | _ => simp at h

/-- Every other instruction's operand bytes are encoded as they were read (R76, R77). -/
theorem Mnemonic.operands_instr (c : Config) {mn : Mnemonic}
    (h : mn ∉ [.adr, .sub, .andR, .orR, .xorR, .cmp, .ex, .unused]) (ob : Byte) {op : List Byte}
    (hlen : op.length + 1 = mn.mode.length) : (mn.instr ob op).operands c = op := by
  cases mn with
  | adr | sub | andR | orR | xorR | cmp | ex | unused => simp at h
  | nop | halt | inc | dec | shl | shlc | shr | shrc | setq | resetq | push | pop | ret =>
    obtain rfl : op = [] := List.length_eq_zero_iff.1 (Nat.succ.inj hlen)
    rfl
  | adi | subi | ani | ori | xri | ldi | spsr | cpsr =>
    obtain ⟨v, rfl⟩ := List.length_eq_one_iff.1 (Nat.succ.inj hlen)
    rfl
  | adm | subm | ldm | sti | lbr | lbrc | lbrz | lbrq | call =>
    obtain ⟨hi, lo, rfl⟩ := List.length_eq_two.1 (Nat.succ.inj hlen)
    simp [Mnemonic.instr, Instr.operands]

end Sys2Proof

namespace Sys2Proof.Machine

/-! ## The obligations -/

/-- Settles O20: the opcode byte is one of the instruction's row and of no other, and the handler reads its operands
back. -/
theorem decodeOfEncode : Obligations.DecodeOfEncode := by
  intro c i rest hc hw
  obtain ⟨p, d, hp, hl, hname, hlen⟩ := Instr.exists_lookup_of_wellFormed hc hw
  refine ⟨p.byte i.selector :: i.operands c, by rw [encode, hp, Option.map_some], ?_⟩
  rw [List.cons_append, decode_append hl hlen, hname, Laws.OperandsReadBack.all i c p hp]

/-- Settles O21: the opcode byte and the length are the row's, and the operand bytes differ by what the format ignores. -/
theorem encodeOfDecode : Obligations.EncodeOfDecode := by
  intro c i bytes rest hc h
  obtain ⟨ob, op, d, rfl, hl, hlen, rfl⟩ := exists_lookup_of_decode h
  obtain ⟨hw, henc, henclen⟩ := encode_of_lookup hc hl op
  have hsame : op.length = ((d.name.instr ob op).operands c).length := by omega
  simp only [Mnemonic.mnemonic_instr]
  refine ⟨hw, _, henc, rfl, ?_, List.drop_left' hsame, fun hname => ?_, fun hname => ?_⟩
  · simp [hsame]
    omega
  · have hu : d.name ≠ .unused := fun e => hname (by simp [e])
    rw [Mnemonic.operands_instr c hname ob (hlen.trans (Config.lookup_length hl hu)), List.cons_append]
  · have hu : d.name ≠ .unused := fun e => by simp [e] at hname
    rw [Config.lookup_length hl hu, Mnemonic.mode_of_dual hname] at hlen
    obtain ⟨v, rfl⟩ := List.length_eq_one_iff.1 (Nat.succ.inj hlen)
    exact ⟨ob, v, rfl, congrArg (ob :: ·) (Mnemonic.operands_instr_of_dual c hname ob v)⟩

end Sys2Proof.Machine
end
